-- ==== Sys2Proof/Word.lean ====
section
/-! DEFINITION. The values of the core: bytes, 16-bit words and the fields of an instruction word (spec 00_scope.md R7, R8, R10). -/

namespace Sys2Proof

/-- An 8-bit value: a general register, a memory byte, a timer, the immediate NN (10_state.md R13, R25; 30_encoding.md R53). -/
abbrev Byte := BitVec 8

/-- A 16-bit value: `pc`, `I`, a return address, an instruction word (10_state.md R16, R19, R20; 30_encoding.md R52). -/
abbrev Word := BitVec 16

/-- A 4-bit field: a register index X or Y, or the row count N; all 16 values name a register (30_encoding.md R53, R54). -/
abbrev Nibble := BitVec 4

/-- The 12-bit field NNN (30_encoding.md R53). -/
abbrev Addr12 := BitVec 12

/-- The index of `VF`, the flag register `V[0xF]` (10_state.md R14). -/
abbrev vf : Nibble := 0xF

/-- The value of a flag written to `VF`: 1 when it holds, else 0 (44_register_ops.md R104). -/
abbrev flagByte (b : Bool) : Byte := if b then 1 else 0

end Sys2Proof
end

