-- ==== Sys2Proof/Config.lean ====
section
/-! DEFINITION. What an implementation fixes: the constants and the seven parameters of 00_scope.md R6. No rule leaves a value
open (93_implementation_defined.md, end of section 1), so there is no free value here. -/

namespace Sys2Proof

/-- `MEM_SIZE`: the memory array has 4096 bytes (00_scope.md R6, 10_state.md R25). -/
abbrev memSize : Nat := 4096

/-- `PROG_ORIGIN`: where the program image is loaded and `pc` starts (00_scope.md R6, 20_memory.md R37). -/
abbrev progOrigin : Nat := 0x200

/-- The size of the program space, 0x200 to 0xFFF (20_memory.md R36, 70_reset_and_hazards.md R140). -/
abbrev progSpace : Nat := 3584

/-- `FONT_BASE`: the first byte of the font region (00_scope.md R6, 10_state.md R26). -/
abbrev fontBase : Nat := 0x050

/-- `FONT_SIZE`: 16 glyphs of 5 bytes (00_scope.md R6, 10_state.md R26). -/
abbrev fontSize : Nat := 80

/-- `P_FONT`: an 80-byte sequence (00_scope.md R6). -/
abbrev Font := Vector Byte 80

/-- `P_TIMER_UNDERFLOW`: what a tick does to a timer at 0 (00_scope.md R6, 60_exceptions.md R126). -/
inductive TimerUnderflow where
  | clamp
  | wrap
  deriving DecidableEq, Repr

/-- `P_LOAD_OVERSIZE`: what construction does with an image longer than the program space (70_reset_and_hazards.md R140). -/
inductive LoadOversize where
  | reject
  | truncate
  deriving DecidableEq, Repr

/-- The parameters the model takes as arguments (00_scope.md R6). They are fixed for one machine: every event keeps them.
DESIGN CHOICE (log 1): they stand in `Machine.State`, so that statements hold for every value of them. -/
structure Params where
  /-- `P_ARITH8_EXT`: 8XY5, 8XY6 and 8XYE are instructions (30_encoding.md R61). -/
  arith8Ext : Bool
  /-- `P_STRICT_DECODE`: an unrecognised word faults instead of being a no-op (30_encoding.md R63). -/
  strictDecode : Bool
  /-- `P_FLAG_LAST`: the result is written before the flag (44_register_ops.md R106). -/
  flagLast : Bool
  /-- `P_STACK_DEPTH`: `none` is `unbounded`, `some d` a bound of `d` entries (10_state.md R21). -/
  stackDepth : Option Nat
  /-- `P_TIMER_UNDERFLOW` (60_exceptions.md R126). -/
  timerUnderflow : TimerUnderflow
  /-- `P_LOAD_OVERSIZE` (70_reset_and_hazards.md R140). -/
  loadOversize : LoadOversize
  /-- `P_FONT` (10_state.md R26). -/
  font : Font
  deriving DecidableEq, Repr

/-- The conventional font, the default of `P_FONT` (10_state.md R27). PRESUMED, unsafe (log 6): the spec takes the bytes
from general knowledge. -/
def defaultFont : Font := #v[
  0xF0, 0x90, 0x90, 0x90, 0xF0,
  0x20, 0x60, 0x20, 0x20, 0x70,
  0xF0, 0x10, 0xF0, 0x80, 0xF0,
  0xF0, 0x10, 0xF0, 0x10, 0xF0,
  0x90, 0x90, 0xF0, 0x10, 0x10,
  0xF0, 0x80, 0xF0, 0x10, 0xF0,
  0xF0, 0x80, 0xF0, 0x90, 0xF0,
  0xF0, 0x10, 0x20, 0x40, 0x40,
  0xF0, 0x90, 0xF0, 0x90, 0xF0,
  0xF0, 0x90, 0xF0, 0x10, 0xF0,
  0xF0, 0x90, 0xF0, 0x90, 0x90,
  0xE0, 0x90, 0xE0, 0x90, 0xE0,
  0xF0, 0x80, 0x80, 0x80, 0xF0,
  0xE0, 0x90, 0x90, 0x90, 0xE0,
  0xF0, 0x80, 0xF0, 0x80, 0xF0,
  0xF0, 0x80, 0xF0, 0x80, 0x80]

/-- The default of every parameter (00_scope.md R6). -/
def Params.default : Params where
  arith8Ext := false
  strictDecode := false
  flagLast := true
  stackDepth := none
  timerUnderflow := .clamp
  loadOversize := .reject
  font := defaultFont

end Sys2Proof
end

