-- ==== Sys2Proof/Syntax.lean ====
section
/-! DEFINITION. The instruction set: one constructor per row of spec/opcode_table.json (30_encoding.md R58, R61). -/

namespace Sys2Proof

/-- The 21 instructions, in the table's order. Every field of the encoding is an operand, so that no bit of a word is lost:
the shifts keep the Y nibble that they ignore (44_register_ops.md R109, R110). -/
inductive Instr where
  /-- `00E0` (41_display.md R77). -/
  | cls
  /-- `00EE` (42_control_flow.md R87). -/
  | ret
  /-- `1NNN` (42_control_flow.md R89). -/
  | jp (nnn : Addr12)
  /-- `2NNN` (42_control_flow.md R90). -/
  | call (nnn : Addr12)
  /-- `3XNN` (43_skip.md R94). -/
  | seImm (x : Nibble) (nn : Byte)
  /-- `4XNN` (43_skip.md R95). -/
  | sneImm (x : Nibble) (nn : Byte)
  /-- `5XY0` (43_skip.md R96). -/
  | seReg (x y : Nibble)
  /-- `6XNN` (44_register_ops.md R98). -/
  | ldImm (x : Nibble) (nn : Byte)
  /-- `7XNN` (44_register_ops.md R99). -/
  | addImm (x : Nibble) (nn : Byte)
  /-- `8XY0` (44_register_ops.md R100). -/
  | ldReg (x y : Nibble)
  /-- `8XY1` (44_register_ops.md R101). -/
  | or (x y : Nibble)
  /-- `8XY2` (44_register_ops.md R102). -/
  | and (x y : Nibble)
  /-- `8XY3` (44_register_ops.md R103). -/
  | xor (x y : Nibble)
  /-- `8XY4` (44_register_ops.md R104). -/
  | addReg (x y : Nibble)
  /-- `8XY5`, only with `P_ARITH8_EXT` (44_register_ops.md R108). -/
  | sub (x y : Nibble)
  /-- `8XY6`, only with `P_ARITH8_EXT`; `y` is encoded and ignored (44_register_ops.md R109). -/
  | shr (x y : Nibble)
  /-- `8XY7` (44_register_ops.md R105). -/
  | subn (x y : Nibble)
  /-- `8XYE`, only with `P_ARITH8_EXT`; `y` is encoded and ignored (44_register_ops.md R110). -/
  | shl (x y : Nibble)
  /-- `9XY0` (43_skip.md R97). -/
  | sneReg (x y : Nibble)
  /-- `ANNN` (44_register_ops.md R107). -/
  | ldI (nnn : Addr12)
  /-- `DXYN` (41_display.md R78). -/
  | drw (x y n : Nibble)
  deriving DecidableEq, Repr

/-- The instructions that exist only with `P_ARITH8_EXT` (30_encoding.md R61). -/
def Instr.isExtension : Instr → Bool
  | .sub _ _ => true
  | .shr _ _ => true
  | .shl _ _ => true
  | .cls => false
  | .ret => false
  | .jp _ => false
  | .call _ => false
  | .seImm _ _ => false
  | .sneImm _ _ => false
  | .seReg _ _ => false
  | .ldImm _ _ => false
  | .addImm _ _ => false
  | .ldReg _ _ => false
  | .or _ _ => false
  | .and _ _ => false
  | .xor _ _ => false
  | .addReg _ _ => false
  | .subn _ _ => false
  | .sneReg _ _ => false
  | .ldI _ => false
  | .drw _ _ _ => false

end Sys2Proof
end

