-- ==== Sys2Proof/WellFormed.lean ====
section
/-! DEFINITION. Which instructions and parameters are admissible. The widths of the operands are in their types, so an
instruction is ill-formed only where the machine's parameters do not have it. -/

namespace Sys2Proof

/-- The instruction exists on a machine with these parameters: 8XY5, 8XY6 and 8XYE need `P_ARITH8_EXT` (30_encoding.md R61). -/
def Instr.wellFormed (p : Params) (i : Instr) : Bool :=
  !i.isExtension || p.arith8Ext

/-- The parameters are among the values of 00_scope.md R6: a bound of the stack is at least 1. -/
def Params.wellFormed (p : Params) : Bool :=
  p.stackDepth != some 0

end Sys2Proof
end

