-- ==== Sys2Proof/Decode.lean ====
section
/-! DEFINITION. Fields, decoding of words and bytes, and the encoder (spec 30_encoding.md). -/

namespace Sys2Proof

/-! ### Fields of a word (00_scope.md R10, 30_encoding.md R53) -/

/-- `op = w[15:12]`, the opcode family. -/
def fieldOp (w : Word) : Nibble := w.extractLsb' 12 4

/-- `x = w[11:8]`. -/
def fieldX (w : Word) : Nibble := w.extractLsb' 8 4

/-- `y = w[7:4]`. -/
def fieldY (w : Word) : Nibble := w.extractLsb' 4 4

/-- `n = w[3:0]`. -/
def fieldN (w : Word) : Nibble := w.extractLsb' 0 4

/-- `nn = w[7:0]`. -/
def fieldNN (w : Word) : Byte := w.extractLsb' 0 8

/-- `nnn = w[11:0]`. -/
def fieldNNN (w : Word) : Addr12 := w.extractLsb' 0 12

/-! ### Decoding -/

/-- Why bytes are no instruction. -/
inductive DecodeError where
  /-- The word is in none of the opcode patterns (30_encoding.md R62, R63). -/
  | unrecognised (w : Word)
  /-- The word is 8XY5, 8XY6 or 8XYE and the machine lacks `P_ARITH8_EXT` (30_encoding.md R61). -/
  | extensionAbsent (w : Word)
  /-- Fewer than two bytes: no instruction word (30_encoding.md R52). -/
  | truncated
  deriving DecidableEq, Repr

/-- Family 0 has the two exact words only (30_encoding.md R59). -/
def decodeFamily0 (w : Word) : Except DecodeError Instr :=
  if w = 0x00E0 then .ok .cls
  else if w = 0x00EE then .ok .ret
  else .error (.unrecognised w)

/-- Family 8 is sub-classified by N; the three rows of the extension are among them (30_encoding.md R61). -/
def decodeFamily8 (w : Word) : Except DecodeError Instr :=
  match fieldN w with
  | 0x0#4 => .ok (.ldReg (fieldX w) (fieldY w))
  | 0x1#4 => .ok (.or (fieldX w) (fieldY w))
  | 0x2#4 => .ok (.and (fieldX w) (fieldY w))
  | 0x3#4 => .ok (.xor (fieldX w) (fieldY w))
  | 0x4#4 => .ok (.addReg (fieldX w) (fieldY w))
  | 0x5#4 => .ok (.sub (fieldX w) (fieldY w))
  | 0x6#4 => .ok (.shr (fieldX w) (fieldY w))
  | 0x7#4 => .ok (.subn (fieldX w) (fieldY w))
  | 0xE#4 => .ok (.shl (fieldX w) (fieldY w))
  | _ => .error (.unrecognised w)

/-- Families 5 and 9 are recognised only with N = 0 (30_encoding.md R60). -/
def decodeN0 (w : Word) (i : Instr) : Except DecodeError Instr :=
  if fieldN w = 0 then .ok i else .error (.unrecognised w)

/-- Decoding by the high nibble first (30_encoding.md R57, R58), with every row of the table, the extension's included. -/
def decode (w : Word) : Except DecodeError Instr :=
  match fieldOp w with
  | 0x0#4 => decodeFamily0 w
  | 0x1#4 => .ok (.jp (fieldNNN w))
  | 0x2#4 => .ok (.call (fieldNNN w))
  | 0x3#4 => .ok (.seImm (fieldX w) (fieldNN w))
  | 0x4#4 => .ok (.sneImm (fieldX w) (fieldNN w))
  | 0x5#4 => decodeN0 w (.seReg (fieldX w) (fieldY w))
  | 0x6#4 => .ok (.ldImm (fieldX w) (fieldNN w))
  | 0x7#4 => .ok (.addImm (fieldX w) (fieldNN w))
  | 0x8#4 => decodeFamily8 w
  | 0x9#4 => decodeN0 w (.sneReg (fieldX w) (fieldY w))
  | 0xA#4 => .ok (.ldI (fieldNNN w))
  | 0xD#4 => .ok (.drw (fieldX w) (fieldY w) (fieldN w))
  | _ => .error (.unrecognised w)

/-- Decoding on a machine with these parameters (40_step_cycle.md R69): a row of the extension is unrecognised without
`P_ARITH8_EXT` (30_encoding.md R61). -/
def decodeFor (p : Params) (w : Word) : Except DecodeError Instr :=
  match decode w with
  | .ok i => if i.wellFormed p then .ok i else .error (.extensionAbsent w)
  | .error e => .error e

/-- The word of two bytes: the byte at the lower address is bits 15:8 (20_memory.md R38). -/
def composeWord (hi lo : Byte) : Word := BitVec.ofNat 16 (hi.toNat * 256 + lo.toNat)

/-- Decoding of bytes as they stand in memory, on a machine with these parameters; the bytes after the instruction are
handed back (30_encoding.md R52, R65: every instruction is two bytes). -/
def decodeBytes (p : Params) : List Byte → Except DecodeError (Instr × List Byte)
  | hi :: lo :: rest =>
    match decodeFor p (composeWord hi lo) with
    | .ok i => .ok (i, rest)
    | .error e => .error e
  | [_] => .error .truncated
  | [] => .error .truncated

/-- The two bytes of a word as memory holds them, the high byte first (20_memory.md R38). -/
def wordBytes (w : Word) : List Byte := [w.extractLsb' 8 8, w.extractLsb' 0 8]

/-! ### Encoding: the "Encoding" line of each instruction's rule in 41 to 44 -/

/-- `base | x<<8 | nn`. -/
def encXNN (base : Word) (x : Nibble) (nn : Byte) : Word :=
  base ||| (x.setWidth 16 <<< 8) ||| nn.setWidth 16

/-- `base | x<<8 | y<<4 | n`. -/
def encXYN (base : Word) (x y n : Nibble) : Word :=
  base ||| (x.setWidth 16 <<< 8) ||| (y.setWidth 16 <<< 4) ||| n.setWidth 16

/-- `base | nnn`. -/
def encNNN (base : Word) (nnn : Addr12) : Word :=
  base ||| nnn.setWidth 16

/-- The word of an instruction (R77, R87, R89, R90, R94 to R105, R107 to R110, R78). -/
def encode : Instr → Word
  | .cls => 0x00E0
  | .ret => 0x00EE
  | .jp nnn => encNNN 0x1000 nnn
  | .call nnn => encNNN 0x2000 nnn
  | .seImm x nn => encXNN 0x3000 x nn
  | .sneImm x nn => encXNN 0x4000 x nn
  | .seReg x y => encXYN 0x5000 x y 0
  | .ldImm x nn => encXNN 0x6000 x nn
  | .addImm x nn => encXNN 0x7000 x nn
  | .ldReg x y => encXYN 0x8000 x y 0x0
  | .or x y => encXYN 0x8000 x y 0x1
  | .and x y => encXYN 0x8000 x y 0x2
  | .xor x y => encXYN 0x8000 x y 0x3
  | .addReg x y => encXYN 0x8000 x y 0x4
  | .sub x y => encXYN 0x8000 x y 0x5
  | .shr x y => encXYN 0x8000 x y 0x6
  | .subn x y => encXYN 0x8000 x y 0x7
  | .shl x y => encXYN 0x8000 x y 0xE
  | .sneReg x y => encXYN 0x9000 x y 0
  | .ldI nnn => encNNN 0xA000 nnn
  | .drw x y n => encXYN 0xD000 x y n

/-! ### The opcode table as data -/

/-- One row of opcode_table.json: a word belongs to it when `w &&& mask = pattern`. -/
structure OpcodeRow where
  pattern : Word
  mask : Word
  deriving DecidableEq, Repr

/-- The word is one of the row's. -/
def OpcodeRow.holds (r : OpcodeRow) (w : Word) : Bool := w &&& r.mask == r.pattern

/-- The `match` and `mask` of the row an instruction belongs to (opcode_table.json). -/
def Instr.row : Instr → OpcodeRow
  | .cls => ⟨0x00E0, 0xFFFF⟩
  | .ret => ⟨0x00EE, 0xFFFF⟩
  | .jp _ => ⟨0x1000, 0xF000⟩
  | .call _ => ⟨0x2000, 0xF000⟩
  | .seImm _ _ => ⟨0x3000, 0xF000⟩
  | .sneImm _ _ => ⟨0x4000, 0xF000⟩
  | .seReg _ _ => ⟨0x5000, 0xF00F⟩
  | .ldImm _ _ => ⟨0x6000, 0xF000⟩
  | .addImm _ _ => ⟨0x7000, 0xF000⟩
  | .ldReg _ _ => ⟨0x8000, 0xF00F⟩
  | .or _ _ => ⟨0x8001, 0xF00F⟩
  | .and _ _ => ⟨0x8002, 0xF00F⟩
  | .xor _ _ => ⟨0x8003, 0xF00F⟩
  | .addReg _ _ => ⟨0x8004, 0xF00F⟩
  | .sub _ _ => ⟨0x8005, 0xF00F⟩
  | .shr _ _ => ⟨0x8006, 0xF00F⟩
  | .subn _ _ => ⟨0x8007, 0xF00F⟩
  | .shl _ _ => ⟨0x800E, 0xF00F⟩
  | .sneReg _ _ => ⟨0x9000, 0xF00F⟩
  | .ldI _ => ⟨0xA000, 0xF000⟩
  | .drw _ _ _ => ⟨0xD000, 0xF000⟩

/-- The parameters a table word is read under: the defaults, with the extension, so that every row of the table is an
instruction (log 8). -/
def tableParams : Params := { Params.default with arith8Ext := true }

/-- The host's question: which instruction the decoder reads from a word numbered as opcode_table.json numbers it. -/
def decodeTableWord (nbits w : Nat) : Option Instr :=
  match decodeBytes tableParams (wordBytes (BitVec.ofNat 16 (w % 2 ^ nbits))) with
  | .ok (i, _) => some i
  | .error _ => none

end Sys2Proof
end

