-- ==== Sys2Proof/Machine/State.lean ====
section
/-! DEFINITION. The state of the core and of the agents around it as plain data, the reasons a step can stop, and the state
after reset (spec 10_state.md, 60_exceptions.md, 70_reset_and_hazards.md). -/

namespace Sys2Proof.Machine

/-- Memory: (address, byte) pairs, addresses strictly rising below 4096, no pair equal to what an unlisted address reads as
(`Memory.baseline`, the reset contents; log 7). `Memory.wf` says so. -/
abbrev Memory := List Host.Cell

/-- The display: 32 rows, top first, of 64 pixels, left first; `true` is on (10_state.md R22). A frame has the same form
(60_exceptions.md R129). -/
abbrev Display := Vector (Vector Bool 64) 32

/-- All 2048 pixels off (10_state.md R32, 41_display.md R77). -/
def Display.blank : Display := Vector.replicate 32 (Vector.replicate 64 false)

/-- The run state `run` (10_state.md R28). -/
inductive RunState where
  /-- `RUN`: the next step request fetches an instruction. -/
  | running
  /-- `FRAME_WAIT`: the frame of a DXYN has not been accepted yet. -/
  | frameWait
  /-- `HALTED`: a fault was taken. -/
  | halted
  deriving DecidableEq, Repr

/-- `fault_cause` (10_state.md R30, 60_exceptions.md R116). -/
inductive FaultCause where
  | none
  | oobFetch
  | oobSpriteRead
  | stackOverflow
  | unknownOpcode
  deriving DecidableEq, Repr

/-- The kind of a warning event; the spec has one (60_exceptions.md R124). -/
inductive WarningKind where
  | stackUnderflow
  deriving DecidableEq, Repr

/-- A warning event: its kind and the address of the instruction (60_exceptions.md R124). -/
structure Warning where
  kind : WarningKind
  pc : Word
  deriving DecidableEq, Repr

/-- What the agents outside the core may do to it (60_exceptions.md R130, R131). Reading status or warnings changes nothing
and is no event (`State.hostStatus`). -/
inductive HostEvent where
  /-- The driver sends a step request. -/
  | stepRequest
  /-- The timer process ticks. -/
  | tick
  /-- The frame sink accepts the pending frame. -/
  | acceptFrame
  /-- The host constructs the core anew with a program image; `[]` is no image. -/
  | reset (image : List Byte)
  deriving DecidableEq, Repr

/-- What the driver and the sink do for ever when no event is listed: the two liberties by which a run can end without a fault
(60_exceptions.md R131, R135 (b) and (c); log 2). -/
structure IdleHost where
  /-- The driver goes on sending step requests; `false`: it has stopped (R135 (b)). -/
  driverRequests : Bool
  /-- The sink accepts a pending frame; `false`: it never does (R135 (c)). -/
  sinkAccepts : Bool
  deriving DecidableEq, Repr

/-- Why the machine stops with a fault. The four faults of 60_exceptions.md R116 are NOT here: their entry is described by the
spec and taken as a next state (`State.raise`). -/
inductive Fault where
  /-- Raised by the event `acceptFrame` while no frame is pending: R128 enables AcceptFrame only in FRAME_WAIT, so a list of
  events that holds it elsewhere describes no run. Safe: the machine stops (log 9). No instruction raises it. -/
  | acceptNotEnabled
  deriving DecidableEq, Repr

/-- Why the model gives no next state. -/
inductive Refusal where
  /-- An instruction of the table without a meaning, by mnemonic; raised by an arm of `exec` only. Safe. No arm raises it now. -/
  | notModelled (mnemonic : String)
  /-- Raised by the event `reset` with an image of more than 3584 bytes when `P_LOAD_OVERSIZE` is `reject`: no core is
  constructed (70_reset_and_hazards.md R140; 93_implementation_defined.md U3 `refuse`). Safe (log 10). -/
  | imageTooLong
  deriving DecidableEq, Repr

/-- The state of the core (10_state.md R13 to R30), then five fields of the model's own: the parameters and the agents
around the core. -/
structure State where
  /-- `V[0]` to `V[15]` (R13); `VF` is `V[15]` (R14). -/
  v : Vector Byte 16
  /-- The index register `I` (R19). -/
  i : Word
  /-- The program counter (R16); while an instruction executes it is the instruction's address plus 2. -/
  pc : Word
  /-- The call stack, the top entry first (R20). -/
  stack : List Word
  /-- The display (R22). -/
  display : Display
  /-- The delay timer `DT` (R23). -/
  dt : Byte
  /-- The sound timer `ST` (R23). -/
  st : Byte
  /-- The memory array `M` (R25). -/
  mem : Memory
  /-- The run state (R28). -/
  run : RunState
  /-- `pending_frame` (R29). -/
  pendingFrame : Option Display
  /-- `fault_cause` (R30). -/
  faultCause : FaultCause
  /-- `fault_pc` (R30). -/
  faultPc : Word
  /-- `fault_addr` (R30). -/
  faultAddr : Word
  /-- `fault_word` (R30). -/
  faultWord : Word
  /-- The warning events, oldest first (60_exceptions.md R124, R131; 70_reset_and_hazards.md R137; log 12). -/
  warnings : List Warning
  /-- The model's own: the parameters of 00_scope.md R6, kept by every event (log 1). -/
  params : Params
  /-- The model's own: what the agents outside the core do next, oldest first (log 2). -/
  inputs : List HostEvent
  /-- The model's own: what the agents do when `inputs` is empty, kept by every event (log 2). -/
  idle : IdleHost
  /-- The model's own: a step request came during FRAME_WAIT and is completed when the frame is accepted (40_step_cycle.md
  R73; log 3). -/
  requestHeld : Bool
  /-- The model's own: the frames the sink has accepted, oldest first (60_exceptions.md R128; log 4). -/
  delivered : List Display
  deriving DecidableEq, Repr

/-- The core right after construction with these parameters and no image (10_state.md R32; 70_reset_and_hazards.md R137,
R138): memory lists nothing, since an unlisted address reads as the zero fill and the font. -/
def State.resetWith (p : Params) : State where
  v := Vector.replicate 16 0
  i := 0
  pc := 0x200
  stack := []
  display := Display.blank
  dt := 0
  st := 0
  mem := []
  run := .running
  pendingFrame := none
  faultCause := .none
  faultPc := 0
  faultAddr := 0
  faultWord := 0
  warnings := []
  params := p
  inputs := []
  idle := { driverRequests := true, sinkAccepts := true }
  requestHeld := false
  delivered := []

/-- The machine right after reset, with the default parameters (10_state.md R32, 00_scope.md R6). -/
def State.reset : State := State.resetWith Params.default

end Sys2Proof.Machine
end

