-- ==== Sys2Proof/Machine/Ops.lean ====
section
/-! DEFINITION. The named operations over memory, registers, stack, display, faults, warnings, frames, timers and
construction: the primitives of 00_scope.md R9 and the events of 60_exceptions.md. -/

namespace Sys2Proof.Machine

/-! ### Memory (20_memory.md) -/

/-- What an unlisted address reads as: the reset contents, `P_FONT` in the font region and 0 elsewhere (20_memory.md R36,
10_state.md R26, R32; log 7). -/
def Memory.baseline (font : Font) (a : Nat) : Byte :=
  if h : fontBase ≤ a ∧ a < fontBase + fontSize then font.get ⟨a - fontBase, by simp only [fontBase, fontSize] at h ⊢; omega⟩ else 0

/-- The byte at an address. -/
def Memory.read (font : Font) : Memory → Nat → Byte
  | [], a => Memory.baseline font a
  | (k, b) :: rest, a => if a = k then b else Memory.read font rest a

/-- The byte at an address replaced, keeping the canonical form: a byte equal to the baseline is not listed. -/
def Memory.write (font : Font) : Memory → Nat → Byte → Memory
  | [], a, b => if b = Memory.baseline font a then [] else [(a, b)]
  | (k, c) :: rest, a, b =>
    if a < k then
      if b = Memory.baseline font a then (k, c) :: rest else (a, b) :: (k, c) :: rest
    else if a = k then
      if b = Memory.baseline font a then rest else (a, b) :: rest
    else (k, c) :: Memory.write font rest a b

/-- Canonical form of the pairs from address `lo` on. -/
def Memory.wfFrom (font : Font) : Nat → Memory → Bool
  | _, [] => true
  | lo, (k, b) :: rest => lo ≤ k && k < memSize && b != Memory.baseline font k && Memory.wfFrom font (k + 1) rest

/-- The canonical form: addresses strictly rising, all inside the array, no byte equal to the baseline. -/
def Memory.wf (font : Font) (m : Memory) : Bool := Memory.wfFrom font 0 m

/-- Bytes copied to consecutive addresses from `a` on (70_reset_and_hazards.md R139). -/
def Memory.load (font : Font) (m : Memory) : Nat → List Byte → Memory
  | _, [] => m
  | a, b :: bs => Memory.write font (Memory.load font m (a + 1) bs) a b

/-- The byte the array holds at an address below 4096. -/
def State.byteAt (s : State) (a : Nat) : Byte := Memory.read s.params.font s.mem a

/-- `MemRead(a, 1)`: the byte, or the out-of-range address (20_memory.md R42). -/
def State.memRead1 (s : State) (a : Nat) : Except Nat Byte :=
  if a < memSize then .ok (s.byteAt a) else .error a

/-- `MemRead(a, 2)`, big-endian; the first out-of-range address is reported (20_memory.md R38, R42, R43). -/
def State.memRead2 (s : State) (a : Nat) : Except Nat Word :=
  if a < memSize then
    if a + 1 < memSize then .ok (composeWord (s.byteAt a) (s.byteAt (a + 1))) else .error (a + 1)
  else .error a

/-- `MemRead(a + r, 1)` for `r` below `count`, in order; the first out-of-range address is reported (41_display.md R78, R84). -/
def State.memReadRows (s : State) : Nat → Nat → Except Nat (List Byte)
  | _, 0 => .ok []
  | a, count + 1 =>
    match s.memRead1 a with
    | .error bad => .error bad
    | .ok b =>
      match s.memReadRows (a + 1) count with
      | .error bad => .error bad
      | .ok bs => .ok (b :: bs)

/-- `MemWrite` of one byte; nothing is written outside the array (70_reset_and_hazards.md R140). No instruction uses it. -/
def State.memWrite1 (s : State) (a : Nat) (b : Byte) : State :=
  if a < memSize then { s with mem := Memory.write s.params.font s.mem a b } else s

/-! ### Registers (10_state.md R13 to R19) -/

/-- `V[x]`. -/
def State.readV (s : State) (x : Nibble) : Byte := s.v.get x.toFin

/-- `V[x] <- b`. -/
def State.writeV (s : State) (x : Nibble) (b : Byte) : State := { s with v := s.v.set x.toNat b x.isLt }

/-- `I <- w`. -/
def State.writeI (s : State) (w : Word) : State := { s with i := w }

/-- `pc <- target`; not checked when written (10_state.md R18). -/
def State.writePc (s : State) (target : Word) : State := { s with pc := target }

/-- `pc <- (pc + 2) mod 2^16`: the fetch's advance (10_state.md R17) and a taken skip (43_skip.md R93). -/
def State.advancePc (s : State) : State := s.writePc (s.pc + 2)

/-- The address of the executing instruction's first byte, `a`: `pc` is `a + 2` by then (10_state.md R16). -/
def State.instrAddr (s : State) : Word := s.pc - 2

/-! ### Call stack (10_state.md R20, R21) -/

/-- The stack holds as many entries as `P_STACK_DEPTH` allows (42_control_flow.md R90). -/
def State.stackFull (s : State) : Bool :=
  match s.params.stackDepth with
  | none => false
  | some d => s.stack.length == d

/-- `Push(w)`. -/
def State.push (s : State) (w : Word) : State := { s with stack := w :: s.stack }

/-! ### Display (10_state.md R22) -/

/-- `Pix(x, y)`. -/
def Display.pix (d : Display) (x : Fin 64) (y : Fin 32) : Bool := (d.get y).get x

/-- `Pix(x, y) <- b`. -/
def Display.setPix (d : Display) (x : Fin 64) (y : Fin 32) (b : Bool) : Display :=
  d.set y.val ((d.get y).set x.val b x.isLt) y.isLt

/-- The pixel at index `k = y*64 + x` of the row-major grid (10_state.md R22). -/
def Display.atIndex (d : Display) (k : Fin 2048) : Bool :=
  d.pix ⟨k.val % 64, by omega⟩ ⟨k.val / 64, by omega⟩

/-! ### Faults and warnings (60_exceptions.md) -/

/-- The numeric code of a cause (60_exceptions.md R116). -/
def FaultCause.code : FaultCause → Nat
  | .none => 0
  | .oobFetch => 1
  | .oobSpriteRead => 2
  | .stackOverflow => 3
  | .unknownOpcode => 4

/-- Fault entry from the state at the start of the step (60_exceptions.md R115): the status is recorded and the core halts;
nothing else changes. -/
def State.raise (s : State) (cause : FaultCause) (a addr word : Word) : State :=
  { s with run := .halted, faultCause := cause, faultPc := a, faultAddr := addr, faultWord := word }

/-- The state at the start of the step whose instruction executes: only the fetch has changed it, by advancing `pc`
(40_step_cycle.md R71, 60_exceptions.md R114). -/
def State.stepStart (s : State) : State := s.writePc s.instrAddr

/-- A fault raised by the executing instruction, from before any other effect of it (60_exceptions.md R114, R115). -/
def State.raiseInInstr (s : State) (cause : FaultCause) (addr word : Word) : State :=
  s.stepStart.raise cause s.instrAddr addr word

/-- `Warn(kind, pc)`: one event more for the host (60_exceptions.md R124). -/
def State.warn (s : State) (kind : WarningKind) (a : Word) : State :=
  { s with warnings := s.warnings ++ [⟨kind, a⟩] }

/-! ### Frames and timers (60_exceptions.md R126, R128) -/

/-- `EmitFrame()`: the display is copied into the pending frame and the core waits for the sink (60_exceptions.md R128). -/
def State.emitFrame (s : State) : State := { s with pendingFrame := some s.display, run := .frameWait }

/-- `AcceptFrame`: the sink takes the pending frame and the core runs again; `none` where it is not enabled, which is
everywhere but in FRAME_WAIT (60_exceptions.md R128). -/
def State.acceptFrame (s : State) : Option State :=
  match s.run, s.pendingFrame with
  | .frameWait, some frame => some { s with delivered := s.delivered ++ [frame], pendingFrame := none, run := .running }
  | .frameWait, none => none
  | .running, _ => none
  | .halted, _ => none

/-- One timer after a tick (60_exceptions.md R126). -/
def tickTimer : TimerUnderflow → Byte → Byte
  | .clamp, t => if t > 0 then t - 1 else 0
  | .wrap, t => t - 1

/-- `Tick()`: both timers together (60_exceptions.md R126). -/
def State.tick (s : State) : State :=
  { s with dt := tickTimer s.params.timerUnderflow s.dt, st := tickTimer s.params.timerUnderflow s.st }

/-! ### Construction (70_reset_and_hazards.md R136 to R141) -/

/-- The core with the image copied into program space from its origin (70_reset_and_hazards.md R139). -/
def State.loadImage (s : State) (image : List Byte) : State :=
  { s with mem := Memory.load s.params.font s.mem progOrigin image }

/-- Reset with an image: the zero fill and the font, then the image; an image longer than the program space is rejected or
cut (70_reset_and_hazards.md R136 to R140). -/
def construct (p : Params) (image : List Byte) : Option State :=
  if image.length ≤ progSpace then some ((State.resetWith p).loadImage image)
  else
    match p.loadOversize with
    | .reject => none
    | .truncate => some ((State.resetWith p).loadImage (image.take progSpace))

/-- The core constructed anew among the same agents: the events to come, their habits and the frames already taken are theirs
(70_reset_and_hazards.md R136; log 11). -/
def State.reconstruct (s : State) (image : List Byte) : Option State :=
  match construct s.params image with
  | some fresh => some { fresh with inputs := s.inputs, idle := s.idle, delivered := s.delivered }
  | none => none

/-! ### What the host reads (60_exceptions.md R127, R131) -/

/-- The status the host reads: run state, fault status and timers (60_exceptions.md R131). -/
structure HostStatus where
  run : RunState
  faultCause : FaultCause
  faultPc : Word
  faultAddr : Word
  faultWord : Word
  dt : Byte
  st : Byte
  deriving DecidableEq, Repr

/-- "read status": changes nothing (60_exceptions.md R131). -/
def State.hostStatus (s : State) : HostStatus :=
  ⟨s.run, s.faultCause, s.faultPc, s.faultAddr, s.faultWord, s.dt, s.st⟩

/-! ### Placing an instruction for the next step -/

/-- The core able to fetch: a run state or a `pc` that lets no fetch happen is replaced, and a step request is the next event
(log 13). From reset nothing changes. -/
def State.readyToFetch (s : State) : State :=
  { s with
    run := .running
    pendingFrame := if s.run = .running then s.pendingFrame else none
    pc := if s.pc.toNat + 1 < memSize then s.pc else 0x200
    inputs := if s.inputs = [] ∧ s.idle.driverRequests = true then [] else .stepRequest :: s.inputs }

/-- The machine has the extension when the word is one of the extension's (log 8). -/
def State.withExtensionFor (s : State) (w : Word) : State :=
  match decode w with
  | .ok i => { s with params := { s.params with arith8Ext := s.params.arith8Ext || i.isExtension } }
  | .error _ => s

/-- The word stored where the next step fetches, the high byte at `pc` (20_memory.md R38). -/
def State.placeWord (s : State) (w : Word) : State :=
  let t := (s.withExtensionFor w).readyToFetch
  { t with mem := Memory.load t.params.font t.mem t.pc.toNat (wordBytes w) }

end Sys2Proof.Machine
end

