-- ==== Sys2Proof/Machine/Operands.lean ====
section
/-! DEFINITION. The operand forms of the instructions (spec 30_encoding.md R54 to R56, 41_display.md R78, R79, R82). -/

namespace Sys2Proof.Machine

/-- `zext_16(NNN)`, the form of NNN written to `pc` or `I` (30_encoding.md R55). -/
def zextAddr (nnn : Addr12) : Word := nnn.setWidth 16

/-- `x0 = V[x] mod 64`, the column a sprite starts at (41_display.md R78). -/
def State.spriteCol (s : State) (x : Nibble) : Fin 64 := ⟨(s.readV x).toNat % 64, by omega⟩

/-- `y0 = V[y] mod 64 mod 32`, the row a sprite starts at (41_display.md R78). -/
def State.spriteRow (s : State) (y : Nibble) : Fin 32 := ⟨(s.readV y).toNat % 64 % 32, by omega⟩

/-- `rows = min(n, 32 - y0)`, the rows drawn (41_display.md R78, R82). -/
def State.spriteRows (s : State) (y n : Nibble) : Nat := min n.toNat (32 - (s.spriteRow y).val)

/-- The bits of a sprite row, most significant first, which is left to right (41_display.md R79). -/
def rowBits (b : Byte) : List Bool :=
  [b.getLsbD 7, b.getLsbD 6, b.getLsbD 5, b.getLsbD 4, b.getLsbD 3, b.getLsbD 2, b.getLsbD 1, b.getLsbD 0]

/-- A display being drawn on, with the collision seen so far (41_display.md R80). -/
structure Canvas where
  display : Display
  collision : Bool
  deriving DecidableEq, Repr

/-- One sprite bit at one pixel: a 1 inverts the pixel and an inverted on pixel is a collision; a 0 changes nothing
(41_display.md R80). -/
def Canvas.toggle (c : Canvas) (x : Fin 64) (y : Fin 32) : Bool → Canvas
  | true => { display := c.display.setPix x y (!c.display.pix x y), collision := c.collision || c.display.pix x y }
  | false => c

/-- The bits of one row from column `x` on, stopping at the right edge (41_display.md R78, R82). -/
def Canvas.drawBits (y : Fin 32) : Nat → List Bool → Canvas → Canvas
  | _, [], c => c
  | x, bit :: bits, c => if h : x < 64 then Canvas.drawBits y (x + 1) bits (c.toggle ⟨x, h⟩ y bit) else c

/-- The rows of a sprite from row `y` on, stopping at the bottom edge (41_display.md R78, R82). -/
def Canvas.drawRows (x0 : Fin 64) : Nat → List Byte → Canvas → Canvas
  | _, [], c => c
  | y, b :: bs, c => if h : y < 32 then Canvas.drawRows x0 (y + 1) bs (Canvas.drawBits ⟨y, h⟩ x0.val (rowBits b) c) else c

end Sys2Proof.Machine
end

