-- ==== Sys2Proof/Machine/Control.lean ====
section
/-! DEFINITION. Control transfer: 00EE, 1NNN, 2NNN (spec 42_control_flow.md). `pc` is the instruction's address plus 2 on entry. -/

namespace Sys2Proof.Machine

/-- `00EE`: the top of the stack to `pc`; with an empty stack a warning and address 0 (42_control_flow.md R87, R88). -/
def execRet (s : State) : Host.Outcome State Fault Refusal :=
  match s.stack with
  | [] => .next ((s.warn .stackUnderflow s.instrAddr).writePc 0)
  | top :: rest => .next (({ s with stack := rest }).writePc top)

/-- `1NNN` (42_control_flow.md R89). -/
def execJp (nnn : Addr12) (s : State) : Host.Outcome State Fault Refusal :=
  .next (s.writePc (zextAddr nnn))

/-- `2NNN`: the advanced `pc` is pushed; a full bounded stack faults (42_control_flow.md R90, 60_exceptions.md R119). -/
def execCall (nnn : Addr12) (s : State) : Host.Outcome State Fault Refusal :=
  if s.stackFull then .next (s.raiseInInstr .stackOverflow 0 (encode (.call nnn)))
  else .next ((s.push s.pc).writePc (zextAddr nnn))

end Sys2Proof.Machine
end

