-- ==== Sys2Proof/Machine/Flags.lean ====
section
/-! DEFINITION. The results and flags of the arithmetic instructions, computed on unbounded naturals and narrowed at the end
(spec 00_scope.md R8, 44_register_ops.md R104 to R111), and the order in which the two are written. -/

namespace Sys2Proof.Machine

/-- `(a + b) mod 2^8` (44_register_ops.md R99, R104). -/
def addWrap (a b : Byte) : Byte := BitVec.ofNat 8 ((a.toNat + b.toNat) % 256)

/-- `(a - b) mod 2^8` (44_register_ops.md R105, R108). -/
def subWrap (a b : Byte) : Byte := BitVec.ofInt 8 (((a.toNat : Int) - (b.toNat : Int)) % 256)

/-- The carry of 8XY4: the unbounded sum exceeds 255 (44_register_ops.md R104). -/
def carryFlag (a b : Byte) : Bool := decide (a.toNat + b.toNat > 255)

/-- The no-borrow flag of 8XY7, a strict comparison (44_register_ops.md R105, 90_conflicts.md C7). -/
def noBorrowStrict (a b : Byte) : Bool := decide (a.toNat > b.toNat)

/-- The no-borrow flag of 8XY5 (44_register_ops.md R108). -/
def noBorrow (a b : Byte) : Bool := decide (a.toNat ≥ b.toNat)

/-- `v >> 1` (44_register_ops.md R109). -/
def shiftRight1 (v : Byte) : Byte := BitVec.ofNat 8 (v.toNat / 2)

/-- `(v << 1) mod 2^8` (44_register_ops.md R110). -/
def shiftLeft1 (v : Byte) : Byte := BitVec.ofNat 8 (v.toNat * 2 % 256)

/-- The bit 8XY6 shifts out, `v[0]` (44_register_ops.md R109). -/
def shiftedOutRight (v : Byte) : Bool := v.getLsbD 0

/-- The bit 8XYE shifts out, `v[7]` (44_register_ops.md R110). -/
def shiftedOutLeft (v : Byte) : Bool := v.getLsbD 7

/-- `WriteResultAndFlag(x, r, f)`: the flag last with `P_FLAG_LAST`, else the result last (44_register_ops.md R106). -/
def State.writeResultAndFlag (s : State) (x : Nibble) (r : Byte) (f : Bool) : State :=
  if s.params.flagLast then (s.writeV x r).writeV vf (flagByte f)
  else (s.writeV vf (flagByte f)).writeV x r

end Sys2Proof.Machine
end

