-- ==== Sys2Proof/Machine/DisplayOps.lean ====
section
/-! DEFINITION. The display instructions 00E0 and DXYN (spec 41_display.md). `pc` is the instruction's address plus 2 on entry. -/

namespace Sys2Proof.Machine

/-- `00E0`: every pixel off; no frame, `VF` unchanged (41_display.md R77). -/
def execCls (s : State) : Host.Outcome State Fault Refusal :=
  .next { s with display := Display.blank }

/-- The state after a completed draw of these sprite rows: the coordinates are read before `VF` is written (R85), the pixels
are XORed (R80), `VF` is the collision flag and the frame is emitted (R81). -/
def State.drawSprite (s : State) (x y : Nibble) (bytes : List Byte) : State :=
  let c := Canvas.drawRows (s.spriteCol x) (s.spriteRow y).val bytes ⟨s.display, false⟩
  (({ s with display := c.display }).writeV vf (flagByte c.collision)).emitFrame

/-- `DXYN`: draw the sprite at `I`, or the precise fault of a sprite byte outside memory (41_display.md R78 to R85). -/
def execDrw (x y n : Nibble) (s : State) : Host.Outcome State Fault Refusal :=
  match s.memReadRows s.i.toNat (s.spriteRows y n) with
  | .error bad => .next (s.raiseInInstr .oobSpriteRead (BitVec.ofNat 16 bad) (encode (.drw x y n)))
  | .ok bytes => .next (s.drawSprite x y bytes)

end Sys2Proof.Machine
end

