-- ==== Sys2Proof/Machine/RegisterOps.lean ====
section
/-! DEFINITION. Register operations (spec 44_register_ops.md). Every instruction here leaves `pc` at its address plus 2, which
it is on entry. -/

namespace Sys2Proof.Machine

/-- `6XNN` (44_register_ops.md R98). -/
def execLdImm (x : Nibble) (nn : Byte) (s : State) : Host.Outcome State Fault Refusal :=
  .next (s.writeV x nn)

/-- `7XNN`: no flag (44_register_ops.md R99). -/
def execAddImm (x : Nibble) (nn : Byte) (s : State) : Host.Outcome State Fault Refusal :=
  .next (s.writeV x (addWrap (s.readV x) nn))

/-- `8XY0` (44_register_ops.md R100). -/
def execLdReg (x y : Nibble) (s : State) : Host.Outcome State Fault Refusal :=
  .next (s.writeV x (s.readV y))

/-- `8XY1`: `VF` is not reset (44_register_ops.md R101). -/
def execOr (x y : Nibble) (s : State) : Host.Outcome State Fault Refusal :=
  .next (s.writeV x (s.readV x ||| s.readV y))

/-- `8XY2` (44_register_ops.md R102). -/
def execAnd (x y : Nibble) (s : State) : Host.Outcome State Fault Refusal :=
  .next (s.writeV x (s.readV x &&& s.readV y))

/-- `8XY3` (44_register_ops.md R103). -/
def execXor (x y : Nibble) (s : State) : Host.Outcome State Fault Refusal :=
  .next (s.writeV x (s.readV x ^^^ s.readV y))

/-- `8XY4`: carry in `VF` (44_register_ops.md R104, R106). -/
def execAddReg (x y : Nibble) (s : State) : Host.Outcome State Fault Refusal :=
  .next (s.writeResultAndFlag x (addWrap (s.readV x) (s.readV y)) (carryFlag (s.readV x) (s.readV y)))

/-- `8XY5`, reached only with `P_ARITH8_EXT` (44_register_ops.md R108). PRESUMED, unsafe (log 8). -/
def execSub (x y : Nibble) (s : State) : Host.Outcome State Fault Refusal :=
  .next (s.writeResultAndFlag x (subWrap (s.readV x) (s.readV y)) (noBorrow (s.readV x) (s.readV y)))

/-- `8XY6`, reached only with `P_ARITH8_EXT`; `y` is ignored (44_register_ops.md R109). PRESUMED, unsafe (log 8). -/
def execShr (x _y : Nibble) (s : State) : Host.Outcome State Fault Refusal :=
  .next (s.writeResultAndFlag x (shiftRight1 (s.readV x)) (shiftedOutRight (s.readV x)))

/-- `8XY7`: `V[y] - V[x]`, the flag strict (44_register_ops.md R105, R106). -/
def execSubn (x y : Nibble) (s : State) : Host.Outcome State Fault Refusal :=
  .next (s.writeResultAndFlag x (subWrap (s.readV y) (s.readV x)) (noBorrowStrict (s.readV y) (s.readV x)))

/-- `8XYE`, reached only with `P_ARITH8_EXT`; `y` is ignored (44_register_ops.md R110). PRESUMED, unsafe (log 8). -/
def execShl (x _y : Nibble) (s : State) : Host.Outcome State Fault Refusal :=
  .next (s.writeResultAndFlag x (shiftLeft1 (s.readV x)) (shiftedOutLeft (s.readV x)))

/-- `ANNN` (44_register_ops.md R107). -/
def execLdI (nnn : Addr12) (s : State) : Host.Outcome State Fault Refusal :=
  .next (s.writeI (zextAddr nnn))

end Sys2Proof.Machine
end

