-- ==== Sys2Proof/Machine/Skip.lean ====
section
/-! DEFINITION. Conditional skips: 3XNN, 4XNN, 5XY0, 9XY0 (spec 43_skip.md). `pc` is the instruction's address plus 2 on entry. -/

namespace Sys2Proof.Machine

/-- A taken skip adds 2 to the advanced `pc`; one not taken does nothing (43_skip.md R93). -/
def State.skipIf (s : State) (taken : Bool) : State := if taken then s.advancePc else s

/-- `3XNN` (43_skip.md R94). -/
def execSeImm (x : Nibble) (nn : Byte) (s : State) : Host.Outcome State Fault Refusal :=
  .next (s.skipIf (s.readV x == nn))

/-- `4XNN` (43_skip.md R95). -/
def execSneImm (x : Nibble) (nn : Byte) (s : State) : Host.Outcome State Fault Refusal :=
  .next (s.skipIf (s.readV x != nn))

/-- `5XY0` (43_skip.md R96). -/
def execSeReg (x y : Nibble) (s : State) : Host.Outcome State Fault Refusal :=
  .next (s.skipIf (s.readV x == s.readV y))

/-- `9XY0` (43_skip.md R97). -/
def execSneReg (x y : Nibble) (s : State) : Host.Outcome State Fault Refusal :=
  .next (s.skipIf (s.readV x != s.readV y))

end Sys2Proof.Machine
end

