-- ==== Sys2Proof/Machine/Cycle.lean ====
section
/-! DEFINITION. One step request (spec 40_step_cycle.md R67 to R76) and the events of the other agents (60_exceptions.md
R126 to R131), and which event is next. -/

namespace Sys2Proof.Machine

/-- What is done with a fetched word, `pc` still at its address `a`: the instruction executes with `pc` advanced; an
unrecognised word is a no-op, or a fault with `P_STRICT_DECODE` (40_step_cycle.md R69 to R71, 30_encoding.md R63). -/
def State.runWord (s : State) (w : Word) : Host.Outcome State Fault Refusal :=
  match decodeFor s.params w with
  | .ok i => exec i s.advancePc
  | .error _ => if s.params.strictDecode then .next (s.raise .unknownOpcode s.pc 0 w) else .next s.advancePc

/-- Fetch, decode and execute in run state RUN (40_step_cycle.md R68, R71); a fetch outside memory faults and `pc` is not
advanced (60_exceptions.md R118). -/
def State.runInstr (s : State) : Host.Outcome State Fault Refusal :=
  match s.memRead2 s.pc.toNat with
  | .error bad => .next (s.raise .oobFetch s.pc (BitVec.ofNat 16 bad) 0)
  | .ok w => s.runWord w

/-- `Step()` (40_step_cycle.md R71): STUCK in HALTED and WAITING in FRAME_WAIT change nothing (R72, R73; log 5). -/
def State.stepRequest (s : State) : Host.Outcome State Fault Refusal :=
  match s.run with
  | .halted => .next s
  | .frameWait => .next s
  | .running => s.runInstr

/-- What the driver is told of a step request (40_step_cycle.md R74). -/
inductive StepReport where
  | done
  | waiting
  | stuck
  | faulted (cause : FaultCause)
  deriving DecidableEq, Repr

/-- The outcome of a step request, from the state before it and the state it leaves (40_step_cycle.md R74). -/
def stepReport (before after : State) : StepReport :=
  match before.run with
  | .halted => .stuck
  | .frameWait => .waiting
  | .running => if after.run = .halted then .faulted after.faultCause else .done

/-- The driver's step request as an event: one that comes in FRAME_WAIT is held, not lost (40_step_cycle.md R73; log 3). -/
def State.onStepRequest (s : State) : Host.Outcome State Fault Refusal :=
  match s.run with
  | .frameWait => .next { s with requestHeld := true }
  | .running => s.stepRequest
  | .halted => s.stepRequest

/-- The sink's AcceptFrame as an event: the frame is delivered (60_exceptions.md R128), and a held step request is completed
(40_step_cycle.md R73; log 3). -/
def State.onAcceptFrame (s : State) : Host.Outcome State Fault Refusal :=
  match s.acceptFrame with
  | none => .fault .acceptNotEnabled
  | some t => if t.requestHeld then ({ t with requestHeld := false }).stepRequest else .next t

/-- The host's reset as an event (70_reset_and_hazards.md R136, R140). -/
def State.onReset (s : State) (image : List Byte) : Host.Outcome State Fault Refusal :=
  match s.reconstruct image with
  | some fresh => .next fresh
  | none => .refused .imageTooLong

/-- One event of an agent (60_exceptions.md R130, R131). -/
def State.onEvent (s : State) : HostEvent → Host.Outcome State Fault Refusal
  | .stepRequest => s.onStepRequest
  | .tick => .next s.tick
  | .acceptFrame => s.onAcceptFrame
  | .reset image => s.onReset image

/-- The driver's part when no event is listed: a step request, or nothing if it has stopped (60_exceptions.md R131, R135 (b);
log 2). -/
def State.onIdleDriver (s : State) : Host.Outcome State Fault Refusal :=
  if s.idle.driverRequests then s.onStepRequest else .next s

/-- A pending frame met by a sink that accepts it, when no event is listed: the request that waits for it, or that the driver
now sends, is completed (40_step_cycle.md R73; log 2). -/
def State.onIdleSink (s : State) : Host.Outcome State Fault Refusal :=
  ({ s with requestHeld := s.requestHeld || s.idle.driverRequests }).onAcceptFrame

/-- What happens when no event is listed: the sink accepts a pending frame if it does its duty, else the driver acts alone,
so that a core in FRAME_WAIT waits for ever (60_exceptions.md R131, R135; log 2). -/
def State.onIdle (s : State) : Host.Outcome State Fault Refusal :=
  if s.idle.sinkAccepts && s.acceptFrame.isSome then s.onIdleSink else s.onIdleDriver

/-- The next event of the machine: the oldest listed, else the idle one. -/
def State.nextEvent (s : State) : Host.Outcome State Fault Refusal :=
  match s.inputs with
  | [] => s.onIdle
  | e :: rest => ({ s with inputs := rest }).onEvent e

end Sys2Proof.Machine
end

