-- ==== Sys2Proof/Machine/Step.lean ====
section
/-! DEFINITION. One step of the machine: its next event (spec 60_exceptions.md R130), which with no event listed is by default one
fetch, decode and execute (40_step_cycle.md R71; log 2). -/

namespace Sys2Proof.Machine

/-- One step: the next event of the agents around the core. -/
def step (s : State) : Host.Outcome State Fault Refusal := s.nextEvent

/-- The state with an instruction word placed where the next step fetches it (log 13). -/
def State.withFetchWord (s : State) (nbits w : Nat) : State := s.placeWord (BitVec.ofNat 16 (w % 2 ^ nbits))

end Sys2Proof.Machine
end

