-- ==== Sys2Proof/Safety.lean ====
section
/-! DEFINITION. The terms in which statements about the machine are made: frames, the machine's invariant, runs without a
fault, and when a step runs an instruction. -/

namespace Sys2Proof.Machine

/-- The parts of the state an instruction may change beside its destination registers (10_state.md R15, with the run state,
the pending frame and the warning events). -/
inductive Part where
  | i
  | pc
  | stack
  | display
  | run
  | pendingFrame
  | warnings
  deriving DecidableEq, Repr

/-- `t` differs from `s` at most in the registers `regs` and the parts `parts`: the frame of an instruction. Timers, fault
status, every byte of memory, the parameters and the agents' fields are never among the parts. -/
structure SameExcept (regs : List Nibble) (parts : List Part) (s t : State) : Prop where
  v : ∀ r, r ∉ regs → t.readV r = s.readV r
  i : .i ∉ parts → t.i = s.i
  pc : .pc ∉ parts → t.pc = s.pc
  stack : .stack ∉ parts → t.stack = s.stack
  display : .display ∉ parts → t.display = s.display
  run : .run ∉ parts → t.run = s.run
  pendingFrame : .pendingFrame ∉ parts → t.pendingFrame = s.pendingFrame
  warnings : .warnings ∉ parts → t.warnings = s.warnings
  dt : t.dt = s.dt
  st : t.st = s.st
  faultCause : t.faultCause = s.faultCause
  faultPc : t.faultPc = s.faultPc
  faultAddr : t.faultAddr = s.faultAddr
  faultWord : t.faultWord = s.faultWord
  params : t.params = s.params
  inputs : t.inputs = s.inputs
  idle : t.idle = s.idle
  requestHeld : t.requestHeld = s.requestHeld
  delivered : t.delivered = s.delivered
  bytes : ∀ a, t.byteAt a = s.byteAt a

/-- The registers an instruction may write, with `VF` where it writes it as a side effect (10_state.md R14, R15). -/
def destRegs : Instr → List Nibble
  | .cls => []
  | .ret => []
  | .jp _ => []
  | .call _ => []
  | .seImm _ _ => []
  | .sneImm _ _ => []
  | .seReg _ _ => []
  | .ldImm x _ => [x]
  | .addImm x _ => [x]
  | .ldReg x _ => [x]
  | .or x _ => [x]
  | .and x _ => [x]
  | .xor x _ => [x]
  | .addReg x _ => [x, vf]
  | .sub x _ => [x, vf]
  | .shr x _ => [x, vf]
  | .subn x _ => [x, vf]
  | .shl x _ => [x, vf]
  | .sneReg _ _ => []
  | .ldI _ => []
  | .drw _ _ _ => [vf]

/-- The other parts an instruction may change, beside the fetch's advance of `pc` (10_state.md R15). -/
def destParts : Instr → List Part
  | .cls => [.display]
  | .ret => [.pc, .stack, .warnings]
  | .jp _ => [.pc]
  | .call _ => [.pc, .stack]
  | .seImm _ _ => [.pc]
  | .sneImm _ _ => [.pc]
  | .seReg _ _ => [.pc]
  | .ldImm _ _ => []
  | .addImm _ _ => []
  | .ldReg _ _ => []
  | .or _ _ => []
  | .and _ _ => []
  | .xor _ _ => []
  | .addReg _ _ => []
  | .sub _ _ => []
  | .shr _ _ => []
  | .subn _ _ => []
  | .shl _ _ => []
  | .sneReg _ _ => [.pc]
  | .ldI _ => [.i]
  | .drw _ _ _ => [.display, .run, .pendingFrame]

/-- After `WriteResultAndFlag(x, r, f)`: the result and the flag each in its register, and for `x = 0xF` the one that
`P_FLAG_LAST` lets survive (44_register_ops.md R106). -/
def ResultAndFlag (s t : State) (x : Nibble) (r f : Byte) : Prop :=
  (x ≠ vf → t.readV x = r ∧ t.readV vf = f) ∧
  (x = vf → t.readV vf = if s.params.flagLast then f else r)

/-- What the sprite at `I` has at pixel (X, Y) when drawn `n` rows high at (V[x] mod 64, V[y] mod 32): bit 7 of row r at the
start column, nothing outside its 8 columns and `n` rows (41_display.md R79, R82). The display itself cuts it at its edges. -/
def spriteBit (s : State) (x y n : Nibble) (X : Fin 64) (Y : Fin 32) : Bool :=
  let x0 := (s.readV x).toNat % 64
  let y0 := (s.readV y).toNat % 32
  decide (x0 ≤ X.val ∧ X.val < x0 + 8 ∧ y0 ≤ Y.val ∧ Y.val < y0 + n.toNat) &&
    (s.byteAt (s.i.toNat + (Y.val - y0))).getLsbD (7 - (X.val - x0))

/-- Every row of the sprite that is drawn lies inside memory (41_display.md R84). -/
def SpriteReadable (s : State) (y n : Nibble) : Prop :=
  ∀ r, r < min n.toNat (32 - (s.readV y).toNat % 32) → s.i.toNat + r < 4096

/-- The next event of the machine is a step request that finds the core in RUN: one instruction is fetched
(40_step_cycle.md R71). With no event listed it is the driver's habit that sends the request (log 2). -/
def RequestNext (s : State) : Prop :=
  s.run = .running ∧ ((s.inputs = [] ∧ s.idle.driverRequests = true) ∨ s.inputs.head? = some .stepRequest)

/-- Only step requests and ticks are still to come: no acceptance and no reset (60_exceptions.md R135). -/
def OnlyRequestsAndTicks (s : State) : Prop := ∀ e ∈ s.inputs, e = .stepRequest ∨ e = .tick

/-- Only ticks are still to come: the driver has stopped (60_exceptions.md R135 (b)). -/
def OnlyTicks (s : State) : Prop := s.idle.driverRequests = false ∧ ∀ e ∈ s.inputs, e = .tick

/-- The core in which AcceptFrame leaves `s` when it takes the frame `f`, its event and any request that waited gone
(60_exceptions.md R128, 40_step_cycle.md R73). -/
def State.accepted (s : State) (f : Display) : State :=
  { s with
    inputs := s.inputs.tail, run := .running, pendingFrame := none, delivered := s.delivered ++ [f], requestHeld := false }

/-- The state in which the next event is handled: the event is no longer listed. -/
def State.afterEvent (s : State) : State := { s with inputs := s.inputs.tail }

/-- The word the next fetch reads, where it lies inside memory (20_memory.md R38). -/
def State.nextWord (s : State) : Word := composeWord (s.byteAt s.pc.toNat) (s.byteAt (s.pc.toNat + 1))

/-- No fault is recorded, the premise 60_exceptions.md R135 asks of claims about a program. -/
def NoFault (s : State) : Prop := s.faultCause = .none

/-- What holds in every state the machine reaches. -/
structure Inv (s : State) : Prop where
  /-- Memory is in its canonical form. -/
  memory : Memory.wf s.params.font s.mem = true
  /-- `I` holds a 12-bit value (10_state.md R19). -/
  index : s.i.toNat < 4096
  /-- A fetch leaves `pc` at most 0x1000 and a taken skip at most 0x1002 (43_skip.md R93). -/
  pc : s.pc.toNat ≤ 0x1002
  /-- A pushed return address is at most 0x1000 (42_control_flow.md R90). -/
  returns : ∀ w ∈ s.stack, w.toNat ≤ 0x1000
  /-- The stack is within its bound (10_state.md R21). -/
  depth : ∀ d, s.params.stackDepth = some d → s.stack.length ≤ d
  /-- A frame is pending exactly in FRAME_WAIT (10_state.md R29). -/
  frame : s.run = .frameWait ↔ s.pendingFrame.isSome = true
  /-- The pending frame is the display (60_exceptions.md R129). -/
  frameIsDisplay : ∀ f, s.pendingFrame = some f → f = s.display
  /-- A cause is recorded exactly in HALTED (60_exceptions.md R115, R122). -/
  halted : s.run = .halted ↔ s.faultCause ≠ .none
  /-- Without a cause the fault status is zero (60_exceptions.md R116). -/
  status : s.faultCause = .none → s.faultPc = 0 ∧ s.faultAddr = 0 ∧ s.faultWord = 0
  /-- STACK_OVERFLOW needs a bound (60_exceptions.md R119). -/
  overflow : s.faultCause = .stackOverflow → s.params.stackDepth ≠ none
  /-- UNKNOWN_OPCODE needs the strict decoder (60_exceptions.md R120). -/
  unknown : s.faultCause = .unknownOpcode → s.params.strictDecode = true
  /-- A step request is held only while the core waits (40_step_cycle.md R73). -/
  held : s.requestHeld = true → s.run = .frameWait
  /-- Under `clamp` both timers stay 0 (60_exceptions.md R126). -/
  timers : s.params.timerUnderflow = .clamp → s.dt = 0 ∧ s.st = 0

end Sys2Proof.Machine
end

