-- ==== Sys2Proof/Certificates/Slice0/Obligations.lean ====
section
/-! DEFINITION. The statements about the model, from the numbered rules of spec/. `exec i s` runs `i` in a state whose `pc` is
already advanced (10_state.md R16); the address of the instruction is then `s.pc - 2`. -/

open Sys2Proof Sys2Proof.Machine

/-! ### Encoding and decoding -/

/-- 30_encoding.md R52 to R61: every instruction the machine has is what its own word decodes to; no operand bit is lost. -/
def Obligations.DecodeEncodeRoundTrip : Prop :=
  ∀ (p : Params) (i : Instr), i.wellFormed p = true → decodeFor p (encode i) = .ok i

/-- 30_encoding.md R57: a word has one meaning, and it is the word the encoder gives that instruction. -/
def Obligations.EncodeDecodeRoundTrip : Prop :=
  ∀ (p : Params) (w : Word) (i : Instr), decodeFor p w = .ok i → encode i = w ∧ i.wellFormed p = true

/-- 30_encoding.md R57: the opcode patterns are disjoint. -/
def Obligations.OpcodePatternsDisjoint : Prop :=
  ∀ (w : Word) (i j : Instr), i.row.holds w = true → j.row.holds w = true → i.row = j.row

/-- 30_encoding.md R58, opcode_table.json: a word is decoded exactly when it lies in a row of the table, and then to an
instruction of that row. -/
def Obligations.DecodeFollowsOpcodeTable : Prop :=
  ∀ w : Word,
    (∀ i, decode w = .ok i → i.row.holds w = true) ∧
    (∀ j : Instr, j.row.holds w = true → ∃ i, decode w = .ok i ∧ i.row = j.row)

/-- 30_encoding.md R59 to R62 (the spec marks R62 as derived): exactly these words are unrecognised on a machine with parameters `p`. -/
def Obligations.UnrecognisedWordsAreTheListed : Prop :=
  ∀ (p : Params) (w : Word),
    (∃ e, decodeFor p w = .error e) ↔
      (w.extractLsb' 12 4 = 0x0#4 ∧ w ≠ 0x00E0 ∧ w ≠ 0x00EE) ∨
      (w.extractLsb' 12 4 = 0x5#4 ∧ w.extractLsb' 0 4 ≠ 0x0#4) ∨
      (w.extractLsb' 12 4 = 0x8#4 ∧ w.extractLsb' 0 4 ∈ [0x8#4, 0x9#4, 0xA#4, 0xB#4, 0xC#4, 0xD#4, 0xF#4]) ∨
      (w.extractLsb' 12 4 = 0x8#4 ∧ w.extractLsb' 0 4 ∈ [0x5#4, 0x6#4, 0xE#4] ∧ p.arith8Ext = false) ∨
      (w.extractLsb' 12 4 = 0x9#4 ∧ w.extractLsb' 0 4 ≠ 0x0#4) ∨
      w.extractLsb' 12 4 ∈ [0xB#4, 0xC#4, 0xE#4, 0xF#4]

/-- 95_test_vectors.md section 2: words of each family decode to the instructions they stand for. -/
def Obligations.SampleWordsDecode : Prop :=
  decode 0x00E0 = .ok .cls ∧ decode 0x00EE = .ok .ret ∧ decode 0x1ABC = .ok (.jp 0xABC) ∧ decode 0x2ABC = .ok (.call 0xABC) ∧
  decode 0x3A5C = .ok (.seImm 0xA 0x5C) ∧ decode 0x4A5C = .ok (.sneImm 0xA 0x5C) ∧ decode 0x5AB0 = .ok (.seReg 0xA 0xB) ∧
  decode 0x6A5C = .ok (.ldImm 0xA 0x5C) ∧ decode 0x7A5C = .ok (.addImm 0xA 0x5C) ∧ decode 0x8AB4 = .ok (.addReg 0xA 0xB) ∧
  decode 0x8AB7 = .ok (.subn 0xA 0xB) ∧ decode 0x9AB0 = .ok (.sneReg 0xA 0xB) ∧ decode 0xAABC = .ok (.ldI 0xABC) ∧
  decode 0xDAB5 = .ok (.drw 0xA 0xB 0x5)

/-! ### Memory and fetch -/

/-- 20_memory.md R38: the byte at the lower address is bits 15:8 of the fetched word. -/
def Obligations.FetchIsBigEndian : Prop :=
  ∀ s : State, s.pc.toNat + 1 < 4096 →
    ∃ w, s.memRead2 s.pc.toNat = .ok w ∧ w.toNat = (s.byteAt s.pc.toNat).toNat * 256 + (s.byteAt (s.pc.toNat + 1)).toNat ∧
      w.extractLsb' 8 8 = s.byteAt s.pc.toNat ∧ w.extractLsb' 0 8 = s.byteAt (s.pc.toNat + 1)

/-- 20_memory.md R42: a read answers the byte or word exactly inside memory, else the first address outside. -/
def Obligations.MemReadChecksBounds : Prop :=
  ∀ (s : State) (a : Nat),
    (a < 4096 → s.memRead1 a = .ok (s.byteAt a)) ∧ (4096 ≤ a → s.memRead1 a = .error a) ∧
    (a + 1 < 4096 → s.memRead2 a = .ok (composeWord (s.byteAt a) (s.byteAt (a + 1)))) ∧
    (a + 1 = 4096 → s.memRead2 a = .error 4096) ∧ (4096 ≤ a → s.memRead2 a = .error a)

/-- Log 7: memories in canonical form that read the same are the same data. -/
def Obligations.CanonicalMemoryIsUnique : Prop :=
  ∀ (font : Font) (m m' : Memory), Memory.wf font m = true → Memory.wf font m' = true →
    (∀ a, Memory.read font m a = Memory.read font m' a) → m = m'

/-- 20_memory.md R41 (the spec marks it as derived): no instruction writes memory, and no event but construction does. -/
def Obligations.OnlyConstructionWritesMemory : Prop :=
  (∀ (i : Instr) (s t : State), exec i s = .next t → t.mem = s.mem ∧ ∀ a, t.byteAt a = s.byteAt a) ∧
  (∀ (e : HostEvent) (s t : State), (∀ image, e ≠ .reset image) → s.onEvent e = .next t → ∀ a, t.byteAt a = s.byteAt a)

/-! ### The step -/

/-- 60_exceptions.md R130: the step is the oldest listed event; where that is a step request, or with none listed the driver
sends one, it is that step request. The list and the driver's habit are the model's (log 2). -/
def Obligations.StepHandlesNextEvent : Prop :=
  ∀ s : State,
    (∀ e rest, s.inputs = e :: rest → step s = ({ s with inputs := rest }).onEvent e) ∧
    (RequestNext s → step s = s.afterEvent.stepRequest)

/-- 40_step_cycle.md R71: when the bytes at `pc` decode to an instruction, the step is that instruction's `exec`, with `pc`
past its two bytes and the request's event gone. That a step with no event listed is a step request is the model's choice
(log 2; by R67 the core never steps on its own). -/
def Obligations.StepRunsDecodedInstruction : Prop :=
  ∀ (s : State) (i : Instr), RequestNext s → s.pc.toNat + 1 < 4096 → decodeFor s.params s.nextWord = .ok i →
    step s = exec i { s with inputs := s.inputs.tail, pc := s.pc + 2 }

/-- 30_encoding.md R63, 60_exceptions.md R120: an unrecognised word only advances `pc`, or faults with `P_STRICT_DECODE`. -/
def Obligations.UnrecognisedWordIsNoOpOrFault : Prop :=
  Params.default.strictDecode = false ∧
  ∀ (s : State) (e : DecodeError), s.run = .running → s.pc.toNat + 1 < 4096 → decodeFor s.params s.nextWord = .error e →
    (s.params.strictDecode = false → s.stepRequest = .next { s with pc := s.pc + 2 }) ∧
    (s.params.strictDecode = true → s.stepRequest = .next { s with
      run := .halted, faultCause := .unknownOpcode, faultPc := s.pc, faultAddr := 0, faultWord := s.nextWord })

/-- 60_exceptions.md R118 (the spec marks it as derived): a fetch outside memory takes OOB_FETCH; `pc` is not advanced. -/
def Obligations.FetchOutsideMemoryFaults : Prop :=
  ∀ s : State, s.run = .running → 4096 ≤ s.pc.toNat + 1 →
    s.stepRequest = .next { s with
      run := .halted, faultCause := .oobFetch, faultPc := s.pc,
      faultAddr := if 4096 ≤ s.pc.toNat then s.pc else 0x1000, faultWord := 0 }

/-- 60_exceptions.md R122: HALTED ignores step requests, takes ticks, and is left only by reset, which clears the status. -/
def Obligations.HaltedIsLeftOnlyByReset : Prop :=
  ∀ s : State, s.run = .halted →
    s.stepRequest = .next s ∧ s.onEvent .stepRequest = .next s ∧ s.onEvent .tick = .next s.tick ∧
    (∀ e t, s.onEvent e = .next t → (∃ image, e = .reset image) ∨
      t = { s with dt := t.dt, st := t.st }) ∧
    (∀ image t, s.onEvent (.reset image) = .next t →
      t.run = .running ∧ t.faultCause = .none ∧ t.faultPc = 0 ∧ t.faultAddr = 0 ∧ t.faultWord = 0)

/-- 40_step_cycle.md R73: in FRAME_WAIT a step request fetches nothing and is completed when the frame is accepted. The held
request (log 3), the record of frames (log 4) and what happens with no event listed (log 2) are the model's. -/
def Obligations.FrameWaitHoldsStepRequest : Prop :=
  ∀ (s : State) (f : Display), s.run = .frameWait → s.pendingFrame = some f →
    let accepted : State :=
      { s with run := .running, pendingFrame := none, delivered := s.delivered ++ [f], requestHeld := false }
    s.stepRequest = .next s ∧
    s.onEvent .stepRequest = .next { s with requestHeld := true } ∧
    ({ s with requestHeld := true }).onEvent .acceptFrame = accepted.stepRequest ∧
    (s.inputs = [] → s.idle.sinkAccepts = true →
      step s = if s.requestHeld || s.idle.driverRequests then accepted.stepRequest else .next accepted) ∧
    (s.inputs = [] → s.idle.sinkAccepts = false →
      step s = .next { s with requestHeld := s.requestHeld || s.idle.driverRequests })

/-- 60_exceptions.md R128: AcceptFrame delivers the pending frame and returns the core to RUN; it is enabled only in
FRAME_WAIT. That it stops the machine elsewhere is the model's (log 9). -/
def Obligations.AcceptFrameDeliversPendingFrame : Prop :=
  ∀ s : State,
    (∀ f, s.run = .frameWait → s.pendingFrame = some f → s.requestHeld = false →
      s.onEvent .acceptFrame =
        .next { s with run := .running, pendingFrame := none, delivered := s.delivered ++ [f] }) ∧
    (s.run ≠ .frameWait → s.onEvent .acceptFrame = .fault .acceptNotEnabled)

/-- 60_exceptions.md R128: a pending frame stays pending and undelivered, or is delivered and no longer pending (and a request
that waited runs from there), and nothing else is delivered; only a new construction drops it, and delivers nothing. The
record of delivered frames is the model's (log 4), and so are the held request and the idle event (logs 2 and 3). -/
def Obligations.FrameIsDeliveredExactlyOnce : Prop :=
  ∀ s t : State, Inv s → step s = .next t →
    (s.pendingFrame = none → t.delivered = s.delivered) ∧
    (∀ f, s.pendingFrame = some f →
      (t.pendingFrame = some f ∧ t.delivered = s.delivered) ∨
      (t.delivered = s.delivered ++ [f] ∧ (s.accepted f).pendingFrame = none ∧
        (t = s.accepted f ∨ (s.accepted f).stepRequest = .next t)) ∨
      ((∃ image rest, s.inputs = .reset image :: rest) ∧ t.pendingFrame = none ∧ t.delivered = s.delivered))

/-- 60_exceptions.md R126: the tick event decrements both timers and changes nothing else, in any run state. -/
def Obligations.TickDecrementsBothTimers : Prop :=
  Params.default.timerUnderflow = .clamp ∧
  ∀ s : State,
    (s.params.timerUnderflow = .clamp →
      s.tick.dt.toNat = s.dt.toNat - 1 ∧ s.tick.st.toNat = s.st.toNat - 1) ∧
    (s.params.timerUnderflow = .wrap →
      s.tick.dt.toNat = (s.dt.toNat + 255) % 256 ∧ s.tick.st.toNat = (s.st.toNat + 255) % 256) ∧
    s.tick = { s with dt := s.tick.dt, st := s.tick.st } ∧
    s.onEvent .tick = .next s.tick

/-- 70_reset_and_hazards.md R147 (the spec marks it as derived): a step neither reads nor writes a timer, so ticks and steps commute. -/
def Obligations.TimersAreInvisibleToSteps : Prop :=
  ∀ (s t : State), s.stepRequest = .next t →
    (∀ dt st : Byte, ({ s with dt := dt, st := st }).stepRequest = .next { t with dt := dt, st := st }) ∧
    s.tick.stepRequest = .next t.tick ∧
    s.tick = { s with dt := s.tick.dt, st := s.tick.st }

/-- 60_exceptions.md R114: a step that faults changes the run state and the fault status only, and `fault_pc` is the address of
the instruction. -/
def Obligations.FaultsArePrecise : Prop :=
  ∀ s t : State, s.run = .running → s.stepRequest = .next t → t.run = .halted →
    t = { s with
      run := .halted, faultCause := t.faultCause, faultPc := s.pc, faultAddr := t.faultAddr, faultWord := t.faultWord }

/-- 60_exceptions.md R116 to R121: which fault a step takes, with its status; never two, and none else. -/
def Obligations.StepFaultsForTheNamedCauses : Prop :=
  ∀ s t : State, s.run = .running → s.stepRequest = .next t → t.run = .halted →
    t.faultPc = s.pc ∧
    ((4096 ≤ s.pc.toNat + 1 ∧ t.faultCause = .oobFetch ∧
      t.faultAddr = (if 4096 ≤ s.pc.toNat then s.pc else 0x1000) ∧ t.faultWord = 0) ∨
    (s.pc.toNat + 1 < 4096 ∧ (∃ e, decodeFor s.params s.nextWord = .error e) ∧ s.params.strictDecode = true ∧
      t.faultCause = .unknownOpcode ∧ t.faultAddr = 0 ∧ t.faultWord = s.nextWord) ∨
    (s.pc.toNat + 1 < 4096 ∧ ∃ x y n r, decodeFor s.params s.nextWord = .ok (.drw x y n) ∧
      r < min n.toNat (32 - (s.readV y).toNat % 32) ∧ 4096 ≤ s.i.toNat + r ∧ (∀ q, q < r → s.i.toNat + q < 4096) ∧
      t.faultCause = .oobSpriteRead ∧ t.faultAddr.toNat = s.i.toNat + r ∧ t.faultWord = s.nextWord) ∨
    (s.pc.toNat + 1 < 4096 ∧ ∃ nnn d, decodeFor s.params s.nextWord = .ok (.call nnn) ∧
      s.params.stackDepth = some d ∧ s.stack.length = d ∧
      t.faultCause = .stackOverflow ∧ t.faultAddr = 0 ∧ t.faultWord = s.nextWord))

/-- 40_step_cycle.md R71, R74: a step request is answered in every state, and the driver is told DONE, WAITING, STUCK or the
fault. -/
def Obligations.StepRequestAlwaysAnswers : Prop :=
  ∀ s : State, ∃ t, s.stepRequest = .next t ∧
    (s.run = .halted → t = s ∧ stepReport s t = .stuck) ∧
    (s.run = .frameWait → t = s ∧ stepReport s t = .waiting) ∧
    (s.run = .running →
      (t.run = .halted ∧ t.faultCause ≠ .none ∧ stepReport s t = .faulted t.faultCause) ∨
      (t.run = .running ∧ stepReport s t = .done) ∨
      (t.run = .frameWait ∧ stepReport s t = .done ∧ s.pc.toNat + 1 < 4096 ∧
        ∃ x y n, decodeFor s.params s.nextWord = .ok (.drw x y n)))

/-! ### The end of a run -/

/-- 60_exceptions.md R135, 40_step_cycle.md R72, R73: the three ways a run ends, over any number of steps: HALTED until a
reset; a driver that sends no further request; a sink that never accepts, which leaves the core in FRAME_WAIT for ever with its
frame pending. Only the timers go on. How the model lists events and what the agents do after them are its own (log 2). -/
def Obligations.RunEndsInTheThreeNamedWays : Prop :=
  ∀ (k : Nat) (s : State),
    (s.run = .halted → OnlyRequestsAndTicks s →
      ∃ u, Host.Core.run Sys2Proof.core k s = .next u ∧
        u = { s with inputs := s.inputs.drop k, dt := u.dt, st := u.st }) ∧
    (s.run = .running → OnlyTicks s →
      ∃ u, Host.Core.run Sys2Proof.core k s = .next u ∧
        u = { s with inputs := s.inputs.drop k, dt := u.dt, st := u.st }) ∧
    (s.run = .frameWait → s.idle.sinkAccepts = false → OnlyRequestsAndTicks s →
      ∃ u, Host.Core.run Sys2Proof.core k s = .next u ∧
        u = { s with inputs := s.inputs.drop k, dt := u.dt, st := u.st, requestHeld := u.requestHeld })

/-- 60_exceptions.md R131, R135, 70_reset_and_hazards.md R150: with the driver sending requests and the sink accepting, a core
that is not HALTED fetches at every step. That this is a step with no event listed is the model's (log 2). -/
def Obligations.RunGoesOnWhileHostDoesItsDuty : Prop :=
  ∀ s : State, Inv s → s.inputs = [] → s.idle.driverRequests = true → s.idle.sinkAccepts = true →
    (s.run = .running → step s = s.stepRequest) ∧
    (s.run = .frameWait → ∃ f, s.pendingFrame = some f ∧ (s.accepted f).run = .running ∧
      step s = (s.accepted f).stepRequest)

/-- 60_exceptions.md R135, 42_control_flow.md R89: a jump to itself leaves the state unchanged, at every further step. What a
step does with no event listed is the model's (log 2). -/
def Obligations.SelfJumpChangesNothing : Prop :=
  ∀ (s : State) (nnn : Addr12), s.run = .running → s.pc.toNat + 1 < 4096 → s.nextWord = encNNN 0x1000 nnn →
    nnn.toNat = s.pc.toNat →
    s.stepRequest = .next s ∧ (s.inputs = [] → ∀ k, Host.Core.run Sys2Proof.core k s = .next s)

/-! ### What instructions may change and read -/

/-- 10_state.md R19, R20, R22, R23, 60_exceptions.md R124: only the named instructions change the display, `I`, the stack, the
warnings and the run state; none changes a timer, the parameters or the agents' fields. -/
def Obligations.OnlyNamedInstructionsChangeEachPart : Prop :=
  ∀ (i : Instr) (s t : State), exec i s = .next t →
    (t.display ≠ s.display → i = .cls ∨ ∃ x y n, i = .drw x y n) ∧
    (t.i ≠ s.i → ∃ nnn, i = .ldI nnn) ∧
    (t.stack ≠ s.stack → i = .ret ∨ ∃ nnn, i = .call nnn) ∧
    (t.warnings ≠ s.warnings → i = .ret ∧ s.stack = []) ∧
    (t.run ≠ s.run → (∃ nnn, i = .call nnn) ∨ ∃ x y n, i = .drw x y n) ∧
    (t.pendingFrame ≠ s.pendingFrame → ∃ x y n, i = .drw x y n) ∧
    t.dt = s.dt ∧ t.st = s.st ∧ t.params = s.params ∧ t.inputs = s.inputs ∧ t.idle = s.idle ∧
    t.requestHeld = s.requestHeld ∧ t.delivered = s.delivered

/-- 10_state.md R14: `VF` changes only by an instruction that writes it as its flag or names it as its destination. -/
def Obligations.FlagRegisterChangesOnlyAsNamed : Prop :=
  ∀ (i : Instr) (s t : State), exec i s = .next t → t.readV vf ≠ s.readV vf →
    (∃ x y, i = .addReg x y) ∨ (∃ x y, i = .subn x y) ∨ (∃ x y n, i = .drw x y n) ∨
    (∃ x y, i = .sub x y) ∨ (∃ x y, i = .shr x y) ∨ (∃ x y, i = .shl x y) ∨
    (∃ nn, i = .ldImm vf nn) ∨ (∃ nn, i = .addImm vf nn) ∨ (∃ y, i = .ldReg vf y) ∨
    (∃ y, i = .or vf y) ∨ (∃ y, i = .and vf y) ∨ (∃ y, i = .xor vf y)

/-- 10_state.md R19, R22, 20_memory.md R34: an instruction other than DXYN, 00E0 and ANNN reads neither memory, `I` nor the
display. -/
def Obligations.OnlyDrawReadsMemoryIndexDisplay : Prop :=
  ∀ (i : Instr) (s t : State), i ≠ .cls → (∀ nnn, i ≠ .ldI nnn) → (∀ x y n, i ≠ .drw x y n) → exec i s = .next t →
    ∀ (m : Memory) (w : Word) (d : Display),
      exec i { s with mem := m, i := w, display := d } = .next { t with mem := m, i := w, display := d }

/-! ### Display instructions -/

/-- 41_display.md R77: 00E0 turns every pixel off and changes nothing else; no frame. -/
def Obligations.ClearTurnsEveryPixelOff : Prop :=
  (∀ p, decodeFor p 0x00E0 = .ok .cls) ∧
  ∀ s : State, ∃ t, exec .cls s = .next t ∧ (∀ x y, t.display.pix x y = false) ∧ SameExcept [] [.display] s t

/-- 41_display.md R80, R81, R82: a completed DXYN XORs the clipped sprite into the display, sets `VF` to the collision, and
emits one frame, a copy of the display after the draw. -/
def Obligations.DrawXorsSpriteAndReportsCollision : Prop :=
  ∀ (s : State) (x y n : Nibble), SpriteReadable s y n →
    ∃ t, exec (.drw x y n) s = .next t ∧
      (∀ X Y, t.display.pix X Y = (s.display.pix X Y ^^ spriteBit s x y n X Y)) ∧
      t.readV vf = (if ∃ X Y, spriteBit s x y n X Y = true ∧ s.display.pix X Y = true then 1 else 0) ∧
      t.run = .frameWait ∧ t.pendingFrame = some t.display ∧
      SameExcept [vf] [.display, .run, .pendingFrame] s t

/-- 41_display.md R83 (the spec marks it as derived): DXY0 changes no pixel, sets `VF` to 0 and emits a frame, whatever `I` is. -/
def Obligations.DrawOfZeroRowsOnlyClearsFlag : Prop :=
  ∀ (s : State) (x y : Nibble), ∃ t, exec (.drw x y 0) s = .next t ∧ t.display = s.display ∧ t.readV vf = 0 ∧
    t.run = .frameWait ∧ t.pendingFrame = some s.display ∧ SameExcept [vf] [.run, .pendingFrame] s t

/-- 41_display.md R84: a drawn row outside memory takes OOB_SPRITE_READ for the smallest such row; nothing is drawn and `pc` is
the instruction's address. -/
def Obligations.DrawOutsideMemoryFaults : Prop :=
  ∀ (s : State) (x y n : Nibble) (r : Nat), r < min n.toNat (32 - (s.readV y).toNat % 32) → 4096 ≤ s.i.toNat + r →
    (∀ q, q < r → s.i.toNat + q < 4096) →
    ∃ t, exec (.drw x y n) s = .next t ∧ t.faultAddr.toNat = s.i.toNat + r ∧
      t = { s with
        pc := s.pc - 2, run := .halted, faultCause := .oobSpriteRead, faultPc := s.pc - 2, faultAddr := t.faultAddr,
        faultWord := encode (.drw x y n) }

/-- 41_display.md R80, R86: the same draw twice, with nothing it reads changed between, gives the first display back; the
second draw collides exactly where a drawn 1 bit met an off pixel first, so that where all of them did, `VF` is 1 exactly if
the sprite has a 1 bit in its drawn area. R86 says that last clause of every display, which R80 does not give (log 17). -/
def Obligations.DrawTwiceRestoresDisplay : Prop :=
  ∀ (s t : State) (x y n : Nibble), SpriteReadable s y n → exec (.drw x y n) s = .next t →
    t.readV x = s.readV x → t.readV y = s.readV y →
    ∃ u, exec (.drw x y n) { t with run := .running, pendingFrame := none } = .next u ∧ u.display = s.display ∧
      u.readV vf = (if ∃ X Y, spriteBit s x y n X Y = true ∧ s.display.pix X Y = false then 1 else 0) ∧
      ((∀ X Y, spriteBit s x y n X Y = true → s.display.pix X Y = false) →
        (u.readV vf = 1 ↔ ∃ X Y, spriteBit s x y n X Y = true))

/-! ### Control transfer -/

/-- 42_control_flow.md R87, R88: 00EE pops into `pc`; with an empty stack `pc` is 0, one warning is emitted and the core runs
on. -/
def Obligations.ReturnPopsOrRecovers : Prop :=
  (∀ p, decodeFor p 0x00EE = .ok .ret) ∧
  ∀ s : State,
    (∀ top rest, s.stack = top :: rest →
      ∃ t, exec .ret s = .next t ∧ t.pc = top ∧ t.stack = rest ∧ SameExcept [] [.pc, .stack] s t) ∧
    (s.stack = [] →
      ∃ t, exec .ret s = .next t ∧ t.pc = 0 ∧ t.warnings = s.warnings ++ [⟨.stackUnderflow, s.pc - 2⟩] ∧
        SameExcept [] [.pc, .warnings] s t)

/-- 42_control_flow.md R89: 1NNN sets `pc` to NNN and nothing else. -/
def Obligations.JumpSetsPc : Prop :=
  ∀ (nnn : Addr12), (∀ p, decodeFor p (encNNN 0x1000 nnn) = .ok (.jp nnn)) ∧
    ∀ s : State, ∃ t, exec (.jp nnn) s = .next t ∧ t.pc.toNat = nnn.toNat ∧ SameExcept [] [.pc] s t

/-- 42_control_flow.md R90, 60_exceptions.md R119: 2NNN pushes the advanced `pc` and jumps; with a full bounded stack it takes
STACK_OVERFLOW and leaves all else as before the call. -/
def Obligations.CallPushesReturnAddressOrOverflows : Prop :=
  ∀ (nnn : Addr12), (∀ p, decodeFor p (encNNN 0x2000 nnn) = .ok (.call nnn)) ∧
    ∀ s : State,
      (s.params.stackDepth ≠ some s.stack.length →
        ∃ t, exec (.call nnn) s = .next t ∧ t.stack = s.pc :: s.stack ∧ t.pc.toNat = nnn.toNat ∧
          SameExcept [] [.pc, .stack] s t) ∧
      (s.params.stackDepth = some s.stack.length →
        exec (.call nnn) s = .next { s with
          pc := s.pc - 2, run := .halted, faultCause := .stackOverflow, faultPc := s.pc - 2, faultAddr := 0,
          faultWord := encNNN 0x2000 nnn })

/-- 42_control_flow.md R91 (the spec marks it as derived): a call whose target holds 00EE, then that return, leave `pc` after
the call and the stack as it was. -/
def Obligations.CallThenReturnComesBack : Prop :=
  ∀ (s : State) (nnn : Addr12), s.run = .running → s.pc.toNat + 1 < 4096 → s.nextWord = encNNN 0x2000 nnn →
    s.params.stackDepth ≠ some s.stack.length → nnn.toNat + 1 < 4096 →
    composeWord (s.byteAt nnn.toNat) (s.byteAt (nnn.toNat + 1)) = 0x00EE →
    ∃ t u, s.stepRequest = .next t ∧ t.pc.toNat = nnn.toNat ∧ t.stepRequest = .next u ∧ u.pc = s.pc + 2 ∧
      u.stack = s.stack

/-! ### Skips -/

/-- 43_skip.md R94, R95: 3XNN and 4XNN add 2 to the advanced `pc` exactly when their condition holds, and change nothing else. -/
def Obligations.ImmediateSkipsTestRegister : Prop :=
  ∀ (x : Nibble) (nn : Byte),
    (∀ p, decodeFor p (encXNN 0x3000 x nn) = .ok (.seImm x nn) ∧ decodeFor p (encXNN 0x4000 x nn) = .ok (.sneImm x nn)) ∧
    ∀ s : State,
      (∃ t, exec (.seImm x nn) s = .next t ∧ t.pc = (if s.readV x = nn then s.pc + 2 else s.pc) ∧ SameExcept [] [.pc] s t) ∧
      (∃ t, exec (.sneImm x nn) s = .next t ∧ t.pc = (if s.readV x = nn then s.pc else s.pc + 2) ∧ SameExcept [] [.pc] s t)

/-- 43_skip.md R96, R97: 5XY0 and 9XY0 compare two registers. -/
def Obligations.RegisterSkipsCompareRegisters : Prop :=
  ∀ (x y : Nibble),
    (∀ p, decodeFor p (encXYN 0x5000 x y 0) = .ok (.seReg x y) ∧ decodeFor p (encXYN 0x9000 x y 0) = .ok (.sneReg x y)) ∧
    ∀ s : State,
      (∃ t, exec (.seReg x y) s = .next t ∧ t.pc = (if s.readV x = s.readV y then s.pc + 2 else s.pc) ∧
        SameExcept [] [.pc] s t) ∧
      (∃ t, exec (.sneReg x y) s = .next t ∧ t.pc = (if s.readV x = s.readV y then s.pc else s.pc + 2) ∧
        SameExcept [] [.pc] s t)

/-! ### Register operations -/

/-- 44_register_ops.md R98: 6XNN. -/
def Obligations.LoadImmediateSetsRegister : Prop :=
  ∀ (x : Nibble) (nn : Byte), (∀ p, decodeFor p (encXNN 0x6000 x nn) = .ok (.ldImm x nn)) ∧
    ∀ s : State, ∃ t, exec (.ldImm x nn) s = .next t ∧ t.readV x = nn ∧ SameExcept [x] [] s t

/-- 44_register_ops.md R99: 7XNN wraps and writes no flag. -/
def Obligations.AddImmediateWrapsWithoutFlag : Prop :=
  ∀ (x : Nibble) (nn : Byte), (∀ p, decodeFor p (encXNN 0x7000 x nn) = .ok (.addImm x nn)) ∧
    ∀ s : State, ∃ t, exec (.addImm x nn) s = .next t ∧ (t.readV x).toNat = ((s.readV x).toNat + nn.toNat) % 256 ∧
      SameExcept [x] [] s t

/-- 44_register_ops.md R100: 8XY0. -/
def Obligations.CopyRegisterSetsRegister : Prop :=
  ∀ (x y : Nibble), (∀ p, decodeFor p (encXYN 0x8000 x y 0) = .ok (.ldReg x y)) ∧
    ∀ s : State, ∃ t, exec (.ldReg x y) s = .next t ∧ t.readV x = s.readV y ∧ SameExcept [x] [] s t

/-- 44_register_ops.md R101, R102, R103: 8XY1, 8XY2 and 8XY3, bit by bit; `VF` is not reset. -/
def Obligations.BitwiseOperationsLeaveFlagAlone : Prop :=
  ∀ (x y : Nibble),
    (∀ p, decodeFor p (encXYN 0x8000 x y 1) = .ok (.or x y) ∧ decodeFor p (encXYN 0x8000 x y 2) = .ok (.and x y) ∧
      decodeFor p (encXYN 0x8000 x y 3) = .ok (.xor x y)) ∧
    ∀ s : State,
      (∃ t, exec (.or x y) s = .next t ∧ SameExcept [x] [] s t ∧
        ∀ k, (t.readV x).getLsbD k = ((s.readV x).getLsbD k || (s.readV y).getLsbD k)) ∧
      (∃ t, exec (.and x y) s = .next t ∧ SameExcept [x] [] s t ∧
        ∀ k, (t.readV x).getLsbD k = ((s.readV x).getLsbD k && (s.readV y).getLsbD k)) ∧
      (∃ t, exec (.xor x y) s = .next t ∧ SameExcept [x] [] s t ∧
        ∀ k, (t.readV x).getLsbD k = ((s.readV x).getLsbD k ^^ (s.readV y).getLsbD k))

/-- 44_register_ops.md R104, R106: 8XY4 writes the wrapped sum and the carry in the order of `P_FLAG_LAST`. -/
def Obligations.AddSetsCarryFlag : Prop :=
  ∀ (x y : Nibble), (∀ p, decodeFor p (encXYN 0x8000 x y 4) = .ok (.addReg x y)) ∧
    ∀ s : State, ∃ t, exec (.addReg x y) s = .next t ∧
      ResultAndFlag s t x (BitVec.ofNat 8 ((s.readV x).toNat + (s.readV y).toNat))
        (if (s.readV x).toNat + (s.readV y).toNat > 255 then 1 else 0) ∧
      SameExcept [x, vf] [] s t

/-- 44_register_ops.md R105, R106: 8XY7 writes V[y] - V[x] and the strict no-borrow flag. -/
def Obligations.ReverseSubtractSetsStrictFlag : Prop :=
  ∀ (x y : Nibble), (∀ p, decodeFor p (encXYN 0x8000 x y 7) = .ok (.subn x y)) ∧
    ∀ s : State, ∃ t, exec (.subn x y) s = .next t ∧
      ResultAndFlag s t x (s.readV y - s.readV x) (if (s.readV y).toNat > (s.readV x).toNat then 1 else 0) ∧
      SameExcept [x, vf] [] s t

/-- 44_register_ops.md R108, R106 (from general knowledge, log 8): 8XY5 of the extension writes V[x] - V[y] and the no-borrow flag; without the extension its
word is no instruction. -/
def Obligations.SubtractExtensionSetsNoBorrowFlag : Prop :=
  ∀ (x y : Nibble),
    (∀ p, p.arith8Ext = true → decodeFor p (encXYN 0x8000 x y 5) = .ok (.sub x y)) ∧
    (∀ p, p.arith8Ext = false → ∃ e, decodeFor p (encXYN 0x8000 x y 5) = .error e) ∧
    ∀ s : State, ∃ t, exec (.sub x y) s = .next t ∧
      ResultAndFlag s t x (s.readV x - s.readV y) (if (s.readV x).toNat ≥ (s.readV y).toNat then 1 else 0) ∧
      SameExcept [x, vf] [] s t

/-- 44_register_ops.md R109, R110, R106 (from general knowledge, log 8): the shifts of the extension shift V[x] in place, ignore Y and put the bit shifted out
into `VF`; without the extension their words are no instruction. -/
def Obligations.ShiftExtensionPutsLostBitInFlag : Prop :=
  ∀ (x y : Nibble),
    (∀ p, p.arith8Ext = true → decodeFor p (encXYN 0x8000 x y 6) = .ok (.shr x y) ∧
      decodeFor p (encXYN 0x8000 x y 0xE) = .ok (.shl x y)) ∧
    (∀ p, p.arith8Ext = false → (∃ e, decodeFor p (encXYN 0x8000 x y 6) = .error e) ∧
      ∃ e, decodeFor p (encXYN 0x8000 x y 0xE) = .error e) ∧
    ∀ s : State,
      (∃ t, exec (.shr x y) s = .next t ∧ SameExcept [x, vf] [] s t ∧
        ResultAndFlag s t x (s.readV x >>> 1) (if (s.readV x).getLsbD 0 then 1 else 0)) ∧
      (∃ t, exec (.shl x y) s = .next t ∧ SameExcept [x, vf] [] s t ∧
        ResultAndFlag s t x (s.readV x <<< 1) (if (s.readV x).getLsbD 7 then 1 else 0))

/-- 44_register_ops.md R107: ANNN. -/
def Obligations.LoadIndexSetsIndex : Prop :=
  ∀ (nnn : Addr12), (∀ p, decodeFor p (encNNN 0xA000 nnn) = .ok (.ldI nnn)) ∧
    ∀ s : State, ∃ t, exec (.ldI nnn) s = .next t ∧ t.i.toNat = nnn.toNat ∧ SameExcept [] [.i] s t

/-! ### Reset and construction -/

/-- 70_reset_and_hazards.md R137, R138, R139: construction with an image that fits: zeroes, the font, the image. -/
def Obligations.ConstructionGivesTheResetState : Prop :=
  construct Params.default [] = some State.reset ∧
  ∀ (p : Params) (image : List Byte), image.length ≤ 3584 →
    ∃ s, construct p image = some s ∧
      (∀ x, s.readV x = 0) ∧ s.i = 0 ∧ s.pc = 0x0200 ∧ s.stack = [] ∧ (∀ x y, s.display.pix x y = false) ∧
      s.dt = 0 ∧ s.st = 0 ∧ s.run = .running ∧ s.pendingFrame = none ∧
      s.faultCause = .none ∧ s.faultPc = 0 ∧ s.faultAddr = 0 ∧ s.faultWord = 0 ∧ s.warnings = [] ∧ s.params = p ∧
      (∀ (k : Nat) (h : k < image.length), s.byteAt (0x200 + k) = image[k]) ∧
      (∀ (k : Nat) (h : k < 80), s.byteAt (0x050 + k) = p.font[k]) ∧
      (∀ a, a < 0x050 ∨ (0x0A0 ≤ a ∧ a < 0x200) ∨ 0x200 + image.length ≤ a → s.byteAt a = 0)

/-- 70_reset_and_hazards.md R140: an image that does not fit is rejected or cut to 3584 bytes, as `P_LOAD_OVERSIZE` says. That
the rejected reset stops the machine is the model's (log 10). -/
def Obligations.OversizeImageIsRejectedOrCut : Prop :=
  ∀ (p : Params) (image : List Byte), 3584 < image.length →
    (p.loadOversize = .reject → construct p image = none ∧
      ∀ s : State, s.params = p → s.onEvent (.reset image) = .refused .imageTooLong) ∧
    (p.loadOversize = .truncate →
      ∃ s, construct p image = some s ∧ construct p (image.take 3584) = some s ∧
        ∀ a, a < 0x200 → s.byteAt a = (State.resetWith p).byteAt a)

/-- 70_reset_and_hazards.md R136: reset with an image that construction takes is accepted from any state, and gives the same
core whatever stood before; the parameters, the coming events, the agents' habits and the delivered frames are not the core's
(log 11). -/
def Obligations.ResetForgetsTheStateBefore : Prop :=
  ∀ (s : State) (image : List Byte),
    (image.length ≤ 3584 → ∃ fresh, construct s.params image = some fresh) ∧
    (∀ fresh, construct s.params image = some fresh →
      s.onEvent (.reset image) = .next { fresh with inputs := s.inputs, idle := s.idle, delivered := s.delivered }) ∧
    (∀ t, s.onEvent (.reset image) = .next t → ∃ fresh, construct s.params image = some fresh ∧
      t = { fresh with inputs := s.inputs, idle := s.idle, delivered := s.delivered })

/-- Log 13: a word placed in the reset state is the first instruction the machine runs, in a step with no event listed (log 2).
For 8XY5, 8XY6 and 8XYE, which are no-ops in the reset state itself (30_encoding.md R61), the placement and `decodeTableWord`
turn the extension on (log 8). -/
def Obligations.PlacedWordRunsFirst : Prop :=
  ∀ (w : Word) (i : Instr), decode w = .ok i →
    ∃ t, step (State.reset.withFetchWord 16 w.toNat) = exec i t ∧ t.pc = 0x202 ∧ t.v = State.reset.v ∧
      decodeTableWord 16 w.toNat = some i

/-! ### Invariants -/

/-- The reset state, and every constructed core, meets the invariant (10_state.md R32). -/
def Obligations.ConstructedCoreMeetsInvariant : Prop :=
  Inv State.reset ∧ ∀ (p : Params) (image : List Byte) (s : State), construct p image = some s → Inv s

/-- Every event keeps the invariant, from every state that meets it: canonical memory, a 12-bit `I`, bounded `pc` and return
addresses, a stack within its bound, a pending frame exactly in FRAME_WAIT, a fault status exactly in HALTED. -/
def Obligations.StepKeepsInvariant : Prop :=
  ∀ s t : State, Inv s → step s = .next t → Inv t

/-- 00_scope.md R6: the parameters are those of the machine; no event changes them (log 1), nor the agents' habits (log 2). -/
def Obligations.StepKeepsParameters : Prop :=
  ∀ s t : State, step s = .next t → t.params = s.params ∧ t.idle = s.idle
end

