-- ==== Sys2Proof/Laws/State.lean ====
section
/-! SUPPORT. One lemma per field and update of the state, so that no proof unfolds a record update. -/

namespace Sys2Proof.Machine

variable (s : State)

@[simp] theorem State.writeV_v (x : Nibble) (b : Byte) : (s.writeV x b).v = s.v.set x.toNat b x.isLt := rfl
@[simp] theorem State.writeV_i (x : Nibble) (b : Byte) : (s.writeV x b).i = s.i := rfl
@[simp] theorem State.writeV_pc (x : Nibble) (b : Byte) : (s.writeV x b).pc = s.pc := rfl
@[simp] theorem State.writeV_stack (x : Nibble) (b : Byte) : (s.writeV x b).stack = s.stack := rfl
@[simp] theorem State.writeV_display (x : Nibble) (b : Byte) : (s.writeV x b).display = s.display := rfl
@[simp] theorem State.writeV_dt (x : Nibble) (b : Byte) : (s.writeV x b).dt = s.dt := rfl
@[simp] theorem State.writeV_st (x : Nibble) (b : Byte) : (s.writeV x b).st = s.st := rfl
@[simp] theorem State.writeV_mem (x : Nibble) (b : Byte) : (s.writeV x b).mem = s.mem := rfl
@[simp] theorem State.writeV_run (x : Nibble) (b : Byte) : (s.writeV x b).run = s.run := rfl
@[simp] theorem State.writeV_pendingFrame (x : Nibble) (b : Byte) : (s.writeV x b).pendingFrame = s.pendingFrame := rfl
@[simp] theorem State.writeV_faultCause (x : Nibble) (b : Byte) : (s.writeV x b).faultCause = s.faultCause := rfl
@[simp] theorem State.writeV_faultPc (x : Nibble) (b : Byte) : (s.writeV x b).faultPc = s.faultPc := rfl
@[simp] theorem State.writeV_faultAddr (x : Nibble) (b : Byte) : (s.writeV x b).faultAddr = s.faultAddr := rfl
@[simp] theorem State.writeV_faultWord (x : Nibble) (b : Byte) : (s.writeV x b).faultWord = s.faultWord := rfl
@[simp] theorem State.writeV_warnings (x : Nibble) (b : Byte) : (s.writeV x b).warnings = s.warnings := rfl
@[simp] theorem State.writeV_params (x : Nibble) (b : Byte) : (s.writeV x b).params = s.params := rfl
@[simp] theorem State.writeV_inputs (x : Nibble) (b : Byte) : (s.writeV x b).inputs = s.inputs := rfl
@[simp] theorem State.writeV_idle (x : Nibble) (b : Byte) : (s.writeV x b).idle = s.idle := rfl
@[simp] theorem State.writeV_requestHeld (x : Nibble) (b : Byte) : (s.writeV x b).requestHeld = s.requestHeld := rfl
@[simp] theorem State.writeV_delivered (x : Nibble) (b : Byte) : (s.writeV x b).delivered = s.delivered := rfl

@[simp] theorem State.writeI_v (w : Word) : (s.writeI w).v = s.v := rfl
@[simp] theorem State.writeI_i (w : Word) : (s.writeI w).i = w := rfl
@[simp] theorem State.writeI_pc (w : Word) : (s.writeI w).pc = s.pc := rfl
@[simp] theorem State.writeI_stack (w : Word) : (s.writeI w).stack = s.stack := rfl
@[simp] theorem State.writeI_display (w : Word) : (s.writeI w).display = s.display := rfl
@[simp] theorem State.writeI_dt (w : Word) : (s.writeI w).dt = s.dt := rfl
@[simp] theorem State.writeI_st (w : Word) : (s.writeI w).st = s.st := rfl
@[simp] theorem State.writeI_mem (w : Word) : (s.writeI w).mem = s.mem := rfl
@[simp] theorem State.writeI_run (w : Word) : (s.writeI w).run = s.run := rfl
@[simp] theorem State.writeI_pendingFrame (w : Word) : (s.writeI w).pendingFrame = s.pendingFrame := rfl
@[simp] theorem State.writeI_faultCause (w : Word) : (s.writeI w).faultCause = s.faultCause := rfl
@[simp] theorem State.writeI_faultPc (w : Word) : (s.writeI w).faultPc = s.faultPc := rfl
@[simp] theorem State.writeI_faultAddr (w : Word) : (s.writeI w).faultAddr = s.faultAddr := rfl
@[simp] theorem State.writeI_faultWord (w : Word) : (s.writeI w).faultWord = s.faultWord := rfl
@[simp] theorem State.writeI_warnings (w : Word) : (s.writeI w).warnings = s.warnings := rfl
@[simp] theorem State.writeI_params (w : Word) : (s.writeI w).params = s.params := rfl
@[simp] theorem State.writeI_inputs (w : Word) : (s.writeI w).inputs = s.inputs := rfl
@[simp] theorem State.writeI_idle (w : Word) : (s.writeI w).idle = s.idle := rfl
@[simp] theorem State.writeI_requestHeld (w : Word) : (s.writeI w).requestHeld = s.requestHeld := rfl
@[simp] theorem State.writeI_delivered (w : Word) : (s.writeI w).delivered = s.delivered := rfl

@[simp] theorem State.writePc_v (w : Word) : (s.writePc w).v = s.v := rfl
@[simp] theorem State.writePc_i (w : Word) : (s.writePc w).i = s.i := rfl
@[simp] theorem State.writePc_pc (w : Word) : (s.writePc w).pc = w := rfl
@[simp] theorem State.writePc_stack (w : Word) : (s.writePc w).stack = s.stack := rfl
@[simp] theorem State.writePc_display (w : Word) : (s.writePc w).display = s.display := rfl
@[simp] theorem State.writePc_dt (w : Word) : (s.writePc w).dt = s.dt := rfl
@[simp] theorem State.writePc_st (w : Word) : (s.writePc w).st = s.st := rfl
@[simp] theorem State.writePc_mem (w : Word) : (s.writePc w).mem = s.mem := rfl
@[simp] theorem State.writePc_run (w : Word) : (s.writePc w).run = s.run := rfl
@[simp] theorem State.writePc_pendingFrame (w : Word) : (s.writePc w).pendingFrame = s.pendingFrame := rfl
@[simp] theorem State.writePc_faultCause (w : Word) : (s.writePc w).faultCause = s.faultCause := rfl
@[simp] theorem State.writePc_faultPc (w : Word) : (s.writePc w).faultPc = s.faultPc := rfl
@[simp] theorem State.writePc_faultAddr (w : Word) : (s.writePc w).faultAddr = s.faultAddr := rfl
@[simp] theorem State.writePc_faultWord (w : Word) : (s.writePc w).faultWord = s.faultWord := rfl
@[simp] theorem State.writePc_warnings (w : Word) : (s.writePc w).warnings = s.warnings := rfl
@[simp] theorem State.writePc_params (w : Word) : (s.writePc w).params = s.params := rfl
@[simp] theorem State.writePc_inputs (w : Word) : (s.writePc w).inputs = s.inputs := rfl
@[simp] theorem State.writePc_idle (w : Word) : (s.writePc w).idle = s.idle := rfl
@[simp] theorem State.writePc_requestHeld (w : Word) : (s.writePc w).requestHeld = s.requestHeld := rfl
@[simp] theorem State.writePc_delivered (w : Word) : (s.writePc w).delivered = s.delivered := rfl

@[simp] theorem State.push_v (w : Word) : (s.push w).v = s.v := rfl
@[simp] theorem State.push_i (w : Word) : (s.push w).i = s.i := rfl
@[simp] theorem State.push_pc (w : Word) : (s.push w).pc = s.pc := rfl
@[simp] theorem State.push_stack (w : Word) : (s.push w).stack = w :: s.stack := rfl
@[simp] theorem State.push_display (w : Word) : (s.push w).display = s.display := rfl
@[simp] theorem State.push_dt (w : Word) : (s.push w).dt = s.dt := rfl
@[simp] theorem State.push_st (w : Word) : (s.push w).st = s.st := rfl
@[simp] theorem State.push_mem (w : Word) : (s.push w).mem = s.mem := rfl
@[simp] theorem State.push_run (w : Word) : (s.push w).run = s.run := rfl
@[simp] theorem State.push_pendingFrame (w : Word) : (s.push w).pendingFrame = s.pendingFrame := rfl
@[simp] theorem State.push_faultCause (w : Word) : (s.push w).faultCause = s.faultCause := rfl
@[simp] theorem State.push_faultPc (w : Word) : (s.push w).faultPc = s.faultPc := rfl
@[simp] theorem State.push_faultAddr (w : Word) : (s.push w).faultAddr = s.faultAddr := rfl
@[simp] theorem State.push_faultWord (w : Word) : (s.push w).faultWord = s.faultWord := rfl
@[simp] theorem State.push_warnings (w : Word) : (s.push w).warnings = s.warnings := rfl
@[simp] theorem State.push_params (w : Word) : (s.push w).params = s.params := rfl
@[simp] theorem State.push_inputs (w : Word) : (s.push w).inputs = s.inputs := rfl
@[simp] theorem State.push_idle (w : Word) : (s.push w).idle = s.idle := rfl
@[simp] theorem State.push_requestHeld (w : Word) : (s.push w).requestHeld = s.requestHeld := rfl
@[simp] theorem State.push_delivered (w : Word) : (s.push w).delivered = s.delivered := rfl

@[simp] theorem State.raise_v (c : FaultCause) (a d w : Word) : (s.raise c a d w).v = s.v := rfl
@[simp] theorem State.raise_i (c : FaultCause) (a d w : Word) : (s.raise c a d w).i = s.i := rfl
@[simp] theorem State.raise_pc (c : FaultCause) (a d w : Word) : (s.raise c a d w).pc = s.pc := rfl
@[simp] theorem State.raise_stack (c : FaultCause) (a d w : Word) : (s.raise c a d w).stack = s.stack := rfl
@[simp] theorem State.raise_display (c : FaultCause) (a d w : Word) : (s.raise c a d w).display = s.display := rfl
@[simp] theorem State.raise_dt (c : FaultCause) (a d w : Word) : (s.raise c a d w).dt = s.dt := rfl
@[simp] theorem State.raise_st (c : FaultCause) (a d w : Word) : (s.raise c a d w).st = s.st := rfl
@[simp] theorem State.raise_mem (c : FaultCause) (a d w : Word) : (s.raise c a d w).mem = s.mem := rfl
@[simp] theorem State.raise_run (c : FaultCause) (a d w : Word) : (s.raise c a d w).run = .halted := rfl
@[simp] theorem State.raise_pendingFrame (c : FaultCause) (a d w : Word) : (s.raise c a d w).pendingFrame = s.pendingFrame := rfl
@[simp] theorem State.raise_faultCause (c : FaultCause) (a d w : Word) : (s.raise c a d w).faultCause = c := rfl
@[simp] theorem State.raise_faultPc (c : FaultCause) (a d w : Word) : (s.raise c a d w).faultPc = a := rfl
@[simp] theorem State.raise_faultAddr (c : FaultCause) (a d w : Word) : (s.raise c a d w).faultAddr = d := rfl
@[simp] theorem State.raise_faultWord (c : FaultCause) (a d w : Word) : (s.raise c a d w).faultWord = w := rfl
@[simp] theorem State.raise_warnings (c : FaultCause) (a d w : Word) : (s.raise c a d w).warnings = s.warnings := rfl
@[simp] theorem State.raise_params (c : FaultCause) (a d w : Word) : (s.raise c a d w).params = s.params := rfl
@[simp] theorem State.raise_inputs (c : FaultCause) (a d w : Word) : (s.raise c a d w).inputs = s.inputs := rfl
@[simp] theorem State.raise_idle (c : FaultCause) (a d w : Word) : (s.raise c a d w).idle = s.idle := rfl
@[simp] theorem State.raise_requestHeld (c : FaultCause) (a d w : Word) : (s.raise c a d w).requestHeld = s.requestHeld := rfl
@[simp] theorem State.raise_delivered (c : FaultCause) (a d w : Word) : (s.raise c a d w).delivered = s.delivered := rfl

@[simp] theorem State.warn_v (k : WarningKind) (a : Word) : (s.warn k a).v = s.v := rfl
@[simp] theorem State.warn_i (k : WarningKind) (a : Word) : (s.warn k a).i = s.i := rfl
@[simp] theorem State.warn_pc (k : WarningKind) (a : Word) : (s.warn k a).pc = s.pc := rfl
@[simp] theorem State.warn_stack (k : WarningKind) (a : Word) : (s.warn k a).stack = s.stack := rfl
@[simp] theorem State.warn_display (k : WarningKind) (a : Word) : (s.warn k a).display = s.display := rfl
@[simp] theorem State.warn_dt (k : WarningKind) (a : Word) : (s.warn k a).dt = s.dt := rfl
@[simp] theorem State.warn_st (k : WarningKind) (a : Word) : (s.warn k a).st = s.st := rfl
@[simp] theorem State.warn_mem (k : WarningKind) (a : Word) : (s.warn k a).mem = s.mem := rfl
@[simp] theorem State.warn_run (k : WarningKind) (a : Word) : (s.warn k a).run = s.run := rfl
@[simp] theorem State.warn_pendingFrame (k : WarningKind) (a : Word) : (s.warn k a).pendingFrame = s.pendingFrame := rfl
@[simp] theorem State.warn_faultCause (k : WarningKind) (a : Word) : (s.warn k a).faultCause = s.faultCause := rfl
@[simp] theorem State.warn_faultPc (k : WarningKind) (a : Word) : (s.warn k a).faultPc = s.faultPc := rfl
@[simp] theorem State.warn_faultAddr (k : WarningKind) (a : Word) : (s.warn k a).faultAddr = s.faultAddr := rfl
@[simp] theorem State.warn_faultWord (k : WarningKind) (a : Word) : (s.warn k a).faultWord = s.faultWord := rfl
@[simp] theorem State.warn_warnings (k : WarningKind) (a : Word) : (s.warn k a).warnings = s.warnings ++ [⟨k, a⟩] := rfl
@[simp] theorem State.warn_params (k : WarningKind) (a : Word) : (s.warn k a).params = s.params := rfl
@[simp] theorem State.warn_inputs (k : WarningKind) (a : Word) : (s.warn k a).inputs = s.inputs := rfl
@[simp] theorem State.warn_idle (k : WarningKind) (a : Word) : (s.warn k a).idle = s.idle := rfl
@[simp] theorem State.warn_requestHeld (k : WarningKind) (a : Word) : (s.warn k a).requestHeld = s.requestHeld := rfl
@[simp] theorem State.warn_delivered (k : WarningKind) (a : Word) : (s.warn k a).delivered = s.delivered := rfl

@[simp] theorem State.emitFrame_v : (s.emitFrame).v = s.v := rfl
@[simp] theorem State.emitFrame_i : (s.emitFrame).i = s.i := rfl
@[simp] theorem State.emitFrame_pc : (s.emitFrame).pc = s.pc := rfl
@[simp] theorem State.emitFrame_stack : (s.emitFrame).stack = s.stack := rfl
@[simp] theorem State.emitFrame_display : (s.emitFrame).display = s.display := rfl
@[simp] theorem State.emitFrame_dt : (s.emitFrame).dt = s.dt := rfl
@[simp] theorem State.emitFrame_st : (s.emitFrame).st = s.st := rfl
@[simp] theorem State.emitFrame_mem : (s.emitFrame).mem = s.mem := rfl
@[simp] theorem State.emitFrame_run : (s.emitFrame).run = .frameWait := rfl
@[simp] theorem State.emitFrame_pendingFrame : (s.emitFrame).pendingFrame = some s.display := rfl
@[simp] theorem State.emitFrame_faultCause : (s.emitFrame).faultCause = s.faultCause := rfl
@[simp] theorem State.emitFrame_faultPc : (s.emitFrame).faultPc = s.faultPc := rfl
@[simp] theorem State.emitFrame_faultAddr : (s.emitFrame).faultAddr = s.faultAddr := rfl
@[simp] theorem State.emitFrame_faultWord : (s.emitFrame).faultWord = s.faultWord := rfl
@[simp] theorem State.emitFrame_warnings : (s.emitFrame).warnings = s.warnings := rfl
@[simp] theorem State.emitFrame_params : (s.emitFrame).params = s.params := rfl
@[simp] theorem State.emitFrame_inputs : (s.emitFrame).inputs = s.inputs := rfl
@[simp] theorem State.emitFrame_idle : (s.emitFrame).idle = s.idle := rfl
@[simp] theorem State.emitFrame_requestHeld : (s.emitFrame).requestHeld = s.requestHeld := rfl
@[simp] theorem State.emitFrame_delivered : (s.emitFrame).delivered = s.delivered := rfl

@[simp] theorem State.tick_v : (s.tick).v = s.v := rfl
@[simp] theorem State.tick_i : (s.tick).i = s.i := rfl
@[simp] theorem State.tick_pc : (s.tick).pc = s.pc := rfl
@[simp] theorem State.tick_stack : (s.tick).stack = s.stack := rfl
@[simp] theorem State.tick_display : (s.tick).display = s.display := rfl
@[simp] theorem State.tick_dt : (s.tick).dt = tickTimer s.params.timerUnderflow s.dt := rfl
@[simp] theorem State.tick_st : (s.tick).st = tickTimer s.params.timerUnderflow s.st := rfl
@[simp] theorem State.tick_mem : (s.tick).mem = s.mem := rfl
@[simp] theorem State.tick_run : (s.tick).run = s.run := rfl
@[simp] theorem State.tick_pendingFrame : (s.tick).pendingFrame = s.pendingFrame := rfl
@[simp] theorem State.tick_faultCause : (s.tick).faultCause = s.faultCause := rfl
@[simp] theorem State.tick_faultPc : (s.tick).faultPc = s.faultPc := rfl
@[simp] theorem State.tick_faultAddr : (s.tick).faultAddr = s.faultAddr := rfl
@[simp] theorem State.tick_faultWord : (s.tick).faultWord = s.faultWord := rfl
@[simp] theorem State.tick_warnings : (s.tick).warnings = s.warnings := rfl
@[simp] theorem State.tick_params : (s.tick).params = s.params := rfl
@[simp] theorem State.tick_inputs : (s.tick).inputs = s.inputs := rfl
@[simp] theorem State.tick_idle : (s.tick).idle = s.idle := rfl
@[simp] theorem State.tick_requestHeld : (s.tick).requestHeld = s.requestHeld := rfl
@[simp] theorem State.tick_delivered : (s.tick).delivered = s.delivered := rfl

end Sys2Proof.Machine
end

