-- ==== Sys2Proof/Laws/Memory.lean ====
section
/-! SUPPORT. Memory: read after write, the canonical form and what a load leaves (spec 20_memory.md, 70_reset_and_hazards.md R139). -/

namespace Sys2Proof.Machine

variable {font : Font}

theorem Memory.wfFrom_mono {lo lo' : Nat} (h : lo' ≤ lo) :
    ∀ {m : Memory}, Memory.wfFrom font lo m = true → Memory.wfFrom font lo' m = true
  | [], _ => rfl
  | (k, b) :: rest, hm => by
    simp only [Memory.wfFrom, Bool.and_eq_true, decide_eq_true_eq] at hm ⊢
    exact ⟨⟨⟨by omega, hm.1.1.2⟩, hm.1.2⟩, hm.2⟩

/-- Below its first address canonical memory reads as the reset contents. -/
theorem Memory.read_below {lo a : Nat} (ha : a < lo) :
    ∀ {m : Memory}, Memory.wfFrom font lo m = true → Memory.read font m a = Memory.baseline font a
  | [], _ => rfl
  | (k, b) :: rest, hm => by
    simp only [Memory.wfFrom, Bool.and_eq_true, decide_eq_true_eq] at hm
    have hk : a ≠ k := by omega
    simp only [Memory.read, if_neg hk]
    exact Memory.read_below (by omega) hm.2

/-- A write leaves every other address alone, in any memory. -/
theorem Memory.read_write_other {a c : Nat} (b : Byte) (h : c ≠ a) :
    ∀ m : Memory, Memory.read font (Memory.write font m a b) c = Memory.read font m c
  | [] => by
    simp only [Memory.write]
    split <;> simp [Memory.read, h]
  | (k, d) :: rest => by
    simp only [Memory.write]
    split
    · split <;> simp [Memory.read, h]
    · split
      · subst a
        split <;> simp [Memory.read, h]
      · simp only [Memory.read, Memory.read_write_other b h rest]

/-- A read after a write to the same address gives the byte written. -/
theorem Memory.read_write_same {a : Nat} (b : Byte) :
    ∀ {lo : Nat} {m : Memory}, Memory.wfFrom font lo m = true → Memory.read font (Memory.write font m a b) a = b
  | _, [], _ => by
    simp only [Memory.write]
    split <;> simp_all [Memory.read]
  | lo, (k, d) :: rest, hm => by
    simp only [Memory.wfFrom, Bool.and_eq_true, decide_eq_true_eq] at hm
    simp only [Memory.write]
    split
    · split
      · rename_i hb
        have hk : a ≠ k := by omega
        simp only [Memory.read, if_neg hk]
        rw [Memory.read_below (lo := k + 1) (by omega) hm.2, hb]
      · simp [Memory.read]
    · split
      · subst a
        split
        · rename_i hb
          rw [Memory.read_below (lo := k + 1) (by omega) hm.2, hb]
        · simp [Memory.read]
      · have hk : ¬ a = k := by assumption
        simp only [Memory.read, if_neg hk]
        exact Memory.read_write_same b hm.2

theorem Memory.wfFrom_write {a : Nat} (b : Byte) (ha : a < memSize) :
    ∀ {lo : Nat} {m : Memory}, lo ≤ a → Memory.wfFrom font lo m = true →
      Memory.wfFrom font lo (Memory.write font m a b) = true
  | lo, [], hlo, _ => by
    simp only [Memory.write]
    split <;> simp_all [Memory.wfFrom]
  | lo, (k, d) :: rest, hlo, hm => by
    have hm' := hm
    simp only [Memory.wfFrom, Bool.and_eq_true, decide_eq_true_eq] at hm
    simp only [Memory.write]
    split
    · split
      · exact hm'
      · simp only [Memory.wfFrom, Bool.and_eq_true, decide_eq_true_eq, bne_iff_ne, ne_eq]
        exact ⟨⟨⟨hlo, ha⟩, by assumption⟩, ⟨⟨by omega, hm.1.1.2⟩, by simpa using hm.1.2⟩, hm.2⟩
    · split
      · subst a
        split
        · exact Memory.wfFrom_mono (by omega) hm.2
        · simp only [Memory.wfFrom, Bool.and_eq_true, decide_eq_true_eq, bne_iff_ne, ne_eq]
          exact ⟨⟨⟨hlo, ha⟩, by assumption⟩, hm.2⟩
      · simp only [Memory.wfFrom, Bool.and_eq_true, decide_eq_true_eq]
        exact ⟨hm.1, Memory.wfFrom_write b ha (by omega) hm.2⟩

/-- A write inside the array keeps the canonical form. -/
theorem Memory.wf_write {m : Memory} {a : Nat} (b : Byte) (ha : a < memSize) (h : Memory.wf font m = true) :
    Memory.wf font (Memory.write font m a b) = true :=
  Memory.wfFrom_write b ha (Nat.zero_le a) h

/-- A load inside the array keeps the canonical form. -/
theorem Memory.wf_load {m : Memory} (h : Memory.wf font m = true) :
    ∀ (bs : List Byte) (a : Nat), a + bs.length ≤ memSize → Memory.wf font (Memory.load font m a bs) = true
  | [], _, _ => h
  | b :: bs, a, hl => by
    simp only [List.length_cons] at hl
    exact Memory.wf_write b (by omega) (Memory.wf_load h bs (a + 1) (by omega))

/-- What a load leaves at an address: the byte loaded there, else what stood there. -/
theorem Memory.read_load {m : Memory} (h : Memory.wf font m = true) :
    ∀ (bs : List Byte) (a c : Nat), a + bs.length ≤ memSize →
      Memory.read font (Memory.load font m a bs) c =
        if hc : a ≤ c ∧ c - a < bs.length then bs[c - a] else Memory.read font m c
  | [], a, c, _ => by simp [Memory.load]
  | b :: bs, a, c, hl => by
    simp only [List.length_cons] at hl
    simp only [Memory.load]
    by_cases hca : c = a
    · subst hca
      rw [Memory.read_write_same b (lo := 0) (Memory.wf_load h bs (c + 1) (by omega))]
      simp
    · rw [Memory.read_write_other b hca, Memory.read_load h bs (a + 1) c (by omega)]
      by_cases hac : a + 1 ≤ c ∧ c - (a + 1) < bs.length
      · have hidx : c - a = (c - (a + 1)) + 1 := by omega
        have : a ≤ c ∧ c - a < (b :: bs).length := ⟨by omega, by simp only [List.length_cons]; omega⟩
        rw [dif_pos hac, dif_pos this]
        simp [hidx]
      · have : ¬ (a ≤ c ∧ c - a < (b :: bs).length) := by
          simp only [List.length_cons]
          omega
        rw [dif_neg hac, dif_neg this]

@[simp] theorem Memory.wf_nil : Memory.wf font [] = true := rfl

@[simp] theorem Memory.read_nil (a : Nat) : Memory.read font [] a = Memory.baseline font a := rfl

/-- Writes to a byte of a state, as reads see them. -/
theorem State.byteAt_memWrite1 (s : State) (a c : Nat) (b : Byte) (hwf : Memory.wf s.params.font s.mem = true)
    (ha : a < memSize) : (s.memWrite1 a b).byteAt c = if c = a then b else s.byteAt c := by
  simp only [State.memWrite1, if_pos ha, State.byteAt]
  split
  · subst c
    exact Memory.read_write_same b hwf
  · exact Memory.read_write_other b ‹_› _

theorem State.memWrite1_wf (s : State) (a : Nat) (b : Byte) (hwf : Memory.wf s.params.font s.mem = true) :
    Memory.wf (s.memWrite1 a b).params.font (s.memWrite1 a b).mem = true := by
  simp only [State.memWrite1]
  split
  · exact Memory.wf_write b ‹_› hwf
  · exact hwf

end Sys2Proof.Machine
end

