-- ==== Sys2Proof/Laws/Ops.lean ====
section
/-! SUPPORT. What each shared operation does: register and stack access, result and flag, sprite reads, fault entry,
construction. -/

namespace Sys2Proof.Machine

/-! ### Registers -/

theorem State.readV_writeV (s : State) (x r : Nibble) (b : Byte) :
    (s.writeV x b).readV r = if r = x then b else s.readV r := by
  simp only [State.readV, State.writeV, Vector.get_eq_getElem, Vector.getElem_set]
  by_cases h : r = x
  · subst h; simp
  · have : x.toNat ≠ r.toNat := fun e => h (BitVec.eq_of_toNat_eq e.symm)
    simp [h, this]

@[simp] theorem State.readV_writeV_same (s : State) (x : Nibble) (b : Byte) : (s.writeV x b).readV x = b := by
  simp [State.readV_writeV]

theorem State.readV_writeV_other (s : State) {x r : Nibble} (b : Byte) (h : r ≠ x) :
    (s.writeV x b).readV r = s.readV r := by
  simp [State.readV_writeV, h]

theorem State.readV_congr {s t : State} (h : t.v = s.v) (r : Nibble) : t.readV r = s.readV r := by
  simp only [State.readV, h]

theorem State.byteAt_congr {s t : State} (hm : t.mem = s.mem) (hp : t.params = s.params) (a : Nat) :
    t.byteAt a = s.byteAt a := by
  simp only [State.byteAt, hm, hp]

@[simp] theorem State.advancePc_eq (s : State) : s.advancePc = s.writePc (s.pc + 2) := rfl

/-- An instruction that faults leaves the state from before its fetch. -/
theorem State.stepStart_advancePc (s : State) : s.advancePc.stepStart = s := by
  simp [State.stepStart, State.instrAddr, State.writePc]

@[simp] theorem State.instrAddr_advancePc (s : State) : (s.writePc (s.pc + 2)).instrAddr = s.pc := by
  simp [State.instrAddr]

theorem State.raiseInInstr_advancePc (s : State) (c : FaultCause) (d w : Word) :
    s.advancePc.raiseInInstr c d w = s.raise c s.pc d w := by
  simp [State.raiseInInstr, State.stepStart, State.instrAddr, State.writePc]

/-! ### Call stack -/

/-- When a bounded stack is full (42_control_flow.md R90). -/
theorem State.stackFull_iff (s : State) : s.stackFull = true ↔ s.params.stackDepth = some s.stack.length := by
  unfold State.stackFull
  split
  · rename_i h
    rw [h]
    simp
  · rename_i d h
    rw [h, beq_iff_eq, Option.some.injEq]
    exact eq_comm

/-! ### Result and flag -/

/-- `WriteResultAndFlag` changes the registers only: everything it does is `ResultAndFlag` (44_register_ops.md R106). -/
theorem State.writeResultAndFlag_regs (s : State) (x : Nibble) (r : Byte) (f : Bool) :
    ResultAndFlag s (s.writeResultAndFlag x r f) x r (flagByte f) := by
  unfold ResultAndFlag State.writeResultAndFlag
  refine ⟨fun hx => ?_, fun hx => ?_⟩
  · have hx' : x ≠ 15#4 := hx
    split <;> simp [State.readV_writeV, hx', Ne.symm hx']
  · subst hx
    cases s.params.flagLast <;> simp

/-- Writing registers leaves every other part alone. -/
theorem sameExcept_writeV (s : State) (x : Nibble) (b : Byte) : SameExcept [x] [] s (s.writeV x b) := by
  constructor <;> intros <;> first | rfl | (apply State.readV_writeV_other; simp_all)

theorem SameExcept.trans_regs {s t u : State} {r1 r2 r : List Nibble} {p : List Part} (h1 : SameExcept r1 p s t)
    (h2 : SameExcept r2 p t u) (hr1 : ∀ x ∈ r1, x ∈ r) (hr2 : ∀ x ∈ r2, x ∈ r) : SameExcept r p s u where
  v x hx := (h2.v x fun h => hx (hr2 x h)).trans (h1.v x fun h => hx (hr1 x h))
  i h := (h2.i h).trans (h1.i h)
  pc h := (h2.pc h).trans (h1.pc h)
  stack h := (h2.stack h).trans (h1.stack h)
  display h := (h2.display h).trans (h1.display h)
  run h := (h2.run h).trans (h1.run h)
  pendingFrame h := (h2.pendingFrame h).trans (h1.pendingFrame h)
  warnings h := (h2.warnings h).trans (h1.warnings h)
  dt := h2.dt.trans h1.dt
  st := h2.st.trans h1.st
  faultCause := h2.faultCause.trans h1.faultCause
  faultPc := h2.faultPc.trans h1.faultPc
  faultAddr := h2.faultAddr.trans h1.faultAddr
  faultWord := h2.faultWord.trans h1.faultWord
  params := h2.params.trans h1.params
  inputs := h2.inputs.trans h1.inputs
  idle := h2.idle.trans h1.idle
  requestHeld := h2.requestHeld.trans h1.requestHeld
  delivered := h2.delivered.trans h1.delivered
  bytes a := (h2.bytes a).trans (h1.bytes a)

theorem sameExcept_writeResultAndFlag (s : State) (x : Nibble) (r : Byte) (f : Bool) :
    SameExcept [x, vf] [] s (s.writeResultAndFlag x r f) := by
  unfold State.writeResultAndFlag
  split
  · exact (sameExcept_writeV s x r).trans_regs (sameExcept_writeV _ vf _) (by simp) (by simp)
  · exact (sameExcept_writeV s vf _).trans_regs (sameExcept_writeV _ x r) (by simp) (by simp)

/-- `WriteResultAndFlag` writes the register file and no other field. -/
theorem State.writeResultAndFlag_eq (s : State) (x : Nibble) (r : Byte) (f : Bool) :
    ∃ v', s.writeResultAndFlag x r f = { s with v := v' } := by
  unfold State.writeResultAndFlag
  split <;> exact ⟨_, rfl⟩

/-! ### Memory reads -/

/-- The fetch's read inside memory (20_memory.md R38, R42). -/
theorem State.memRead2_ok (s : State) {a : Nat} (h : a + 1 < 4096) :
    s.memRead2 a = .ok (composeWord (s.byteAt a) (s.byteAt (a + 1))) := by
  have h0 : a < 4096 := by omega
  simp [State.memRead2, memSize, h, h0]

/-- The fetch's read outside memory reports the first address outside (20_memory.md R42). -/
theorem State.memRead2_error (s : State) {a : Nat} (h : 4096 ≤ a + 1) :
    s.memRead2 a = .error (if 4096 ≤ a then a else a + 1) := by
  by_cases h0 : 4096 ≤ a
  · have : ¬ a < 4096 := by omega
    simp [State.memRead2, memSize, this, h0]
  · have h1 : a < 4096 := by omega
    have h2 : ¬ a + 1 < 4096 := by omega
    simp [State.memRead2, memSize, h0, h1, h2]

theorem State.memRead1_eq (s : State) (a : Nat) :
    s.memRead1 a = if a < 4096 then .ok (s.byteAt a) else .error a := rfl

/-- Every row inside memory: the rows are read in order (41_display.md R79). -/
theorem State.memReadRows_ok (s : State) :
    ∀ (count a : Nat), (∀ r, r < count → a + r < 4096) →
      s.memReadRows a count = .ok ((List.range count).map fun r => s.byteAt (a + r))
  | 0, _, _ => rfl
  | count + 1, a, h => by
    have h0 : a < 4096 := h 0 (by omega)
    have ih := State.memReadRows_ok s count (a + 1) fun r hr => by have := h (r + 1) (by omega); omega
    simp only [State.memReadRows, State.memRead1_eq, if_pos h0, ih, List.range_succ_eq_map, List.map_cons, List.map_map]
    simp [Function.comp_def, Nat.add_comm, Nat.add_left_comm]

/-- Some row outside memory: the first such address is reported (41_display.md R84). -/
theorem State.memReadRows_error (s : State) :
    ∀ (count a r : Nat), r < count → (∀ q, q < r → a + q < 4096) → 4096 ≤ a + r →
      s.memReadRows a count = .error (a + r)
  | 0, _, _, h, _, _ => by omega
  | count + 1, a, 0, _, _, hbad => by
    have : ¬ a < 4096 := by omega
    simp [State.memReadRows, State.memRead1_eq, this]
  | count + 1, a, r + 1, hr, hq, hbad => by
    have h0 : a < 4096 := hq 0 (by omega)
    have ih := State.memReadRows_error s count (a + 1) r (by omega)
      (fun q hq' => by have := hq (q + 1) (by omega); omega) (by omega)
    simp only [State.memReadRows, State.memRead1_eq, if_pos h0, ih]
    congr 1
    omega

/-- A sprite read depends on memory alone. -/
theorem State.memReadRows_congr {s t : State} (hm : t.mem = s.mem) (hp : t.params = s.params) :
    ∀ (count a : Nat), t.memReadRows a count = s.memReadRows a count
  | 0, _ => rfl
  | count + 1, a => by
    simp only [State.memReadRows, State.memRead1_eq, State.byteAt_congr hm hp, State.memReadRows_congr hm hp count]

/-- The rows read, or the address of the first row outside memory: the two things a sprite read can do. -/
theorem memReadRows_cases (a count : Nat) :
    (∀ r, r < count → a + r < 4096) ∨
      ∃ r, r < count ∧ (∀ q, q < r → a + q < 4096) ∧ 4096 ≤ a + r := by
  by_cases h : ∀ r, r < count → a + r < 4096
  · exact .inl h
  · simp only [not_forall, not_lt] at h
    obtain ⟨r, hr, hbad⟩ := h
    by_cases hle : 4096 ≤ a
    · exact .inr ⟨0, by omega, by omega, by omega⟩
    · exact .inr ⟨4096 - a, by omega, by omega, by omega⟩

/-! ### Words -/

/-- The word of two bytes has them as its halves (20_memory.md R38). -/
theorem composeWord_toNat (hi lo : Byte) : (composeWord hi lo).toNat = hi.toNat * 256 + lo.toNat := by
  have h1 := hi.isLt
  have h2 := lo.isLt
  simp only [composeWord, BitVec.toNat_ofNat]
  omega

theorem composeWord_wordBytes (w : Word) : composeWord (w.extractLsb' 8 8) (w.extractLsb' 0 8) = w := by
  apply BitVec.eq_of_toNat_eq
  have := w.isLt
  rw [composeWord_toNat]
  simp only [BitVec.extractLsb'_toNat, Nat.shiftRight_eq_div_pow]
  omega

/-! ### Construction -/

/-- Outside the font region memory is zero after reset (10_state.md R32). -/
theorem Memory.baseline_outside (font : Font) {a : Nat} (h : a < 0x050 ∨ 0x0A0 ≤ a) : Memory.baseline font a = 0 := by
  unfold Memory.baseline
  rw [dif_neg]
  simp only [fontBase, fontSize]
  omega

/-- The font region holds the font after reset (70_reset_and_hazards.md R138). -/
theorem Memory.baseline_font (font : Font) {k : Nat} (h : k < 80) : Memory.baseline font (0x050 + k) = font[k] := by
  unfold Memory.baseline
  rw [dif_pos (by simp only [fontBase, fontSize]; omega)]
  simp [fontBase, Vector.get_eq_getElem]


theorem State.byteAt_resetWith (p : Params) (a : Nat) : (State.resetWith p).byteAt a = Memory.baseline p.font a := rfl

/-- Construction with no image is the reset state (70_reset_and_hazards.md R139). -/
theorem construct_nil (p : Params) : construct p [] = some (State.resetWith p) := rfl

/-- Everything construction can do: the image, or its first 3584 bytes, lies in program space over the reset state. -/
theorem construct_cases {p : Params} {image : List Byte} {s : State} (h : construct p image = some s) :
    ∃ bs : List Byte, bs.length ≤ 3584 ∧
      s = { State.resetWith p with mem := Memory.load p.font [] 0x200 bs } := by
  unfold construct at h
  split at h
  · exact ⟨image, ‹_›, (Option.some.inj h).symm⟩
  · split at h
    · cases h
    · exact ⟨image.take 3584, by simp, (Option.some.inj h).symm⟩

end Sys2Proof.Machine
end

