-- ==== Sys2Proof/Laws/Display.lean ====
section
/-! SUPPORT. The display: pixels after a write, and the closed form of the draw loop (spec 41_display.md R79 to R82). -/

namespace Sys2Proof.Machine

/-- A pixel after a pixel is written. -/
theorem Display.pix_setPix (d : Display) (x X : Fin 64) (y Y : Fin 32) (b : Bool) :
    (d.setPix x y b).pix X Y = if X = x ∧ Y = y then b else d.pix X Y := by
  obtain ⟨x, hx⟩ := x
  obtain ⟨X, hX⟩ := X
  obtain ⟨y, hy⟩ := y
  obtain ⟨Y, hY⟩ := Y
  simp only [Display.pix, Display.setPix, Vector.get_eq_getElem, Vector.getElem_set, Fin.mk.injEq]
  by_cases h1 : y = Y
  · subst h1
    by_cases h2 : x = X
    · simp [h2]
    · simp [h2, Ne.symm h2]
  · simp [h1, Ne.symm h1]

@[simp] theorem Display.pix_blank (x : Fin 64) (y : Fin 32) : Display.blank.pix x y = false := by
  simp [Display.blank, Display.pix, Vector.get_eq_getElem]

/-- Two displays with the same pixels are the same. -/
theorem Display.ext_pix {d e : Display} (h : ∀ x y, d.pix x y = e.pix x y) : d = e := by
  ext y hy x hx
  have := h ⟨x, hx⟩ ⟨y, hy⟩
  simpa [Display.pix, Vector.get_eq_getElem] using this

/-- One sprite bit XORs its pixel (41_display.md R80). -/
theorem Canvas.toggle_pix (c : Canvas) (x X : Fin 64) (y Y : Fin 32) (b : Bool) :
    (c.toggle x y b).display.pix X Y = (c.display.pix X Y ^^ (decide (X = x ∧ Y = y) && b)) := by
  cases b
  · simp [Canvas.toggle]
  · simp only [Canvas.toggle, Display.pix_setPix]
    by_cases h : X = x ∧ Y = y
    · obtain ⟨rfl, rfl⟩ := h
      simp
    · simp [h]

/-- The collision one sprite bit adds (41_display.md R80). -/
theorem Canvas.toggle_collision (c : Canvas) (x : Fin 64) (y : Fin 32) (b : Bool) :
    (c.toggle x y b).collision = (c.collision || (b && c.display.pix x y)) := by
  cases b <;> simp [Canvas.toggle]

/-- A row of bits XORs its pixels and no others; bits beyond the right edge fall away (41_display.md R82). -/
theorem Canvas.drawBits_pix (y : Fin 32) (X : Fin 64) (Y : Fin 32) :
    ∀ (bits : List Bool) (x : Nat) (c : Canvas),
      (Canvas.drawBits y x bits c).display.pix X Y =
        (c.display.pix X Y ^^ (decide (Y = y ∧ x ≤ X.val) && bits.getD (X.val - x) false))
  | [], x, c => by simp [Canvas.drawBits]
  | bit :: bits, x, c => by
    simp only [Canvas.drawBits]
    split
    · rename_i hx
      rw [Canvas.drawBits_pix y X Y bits (x + 1), Canvas.toggle_pix]
      by_cases hY : Y = y
      · subst hY
        by_cases hX : X.val = x
        · subst hX
          simp
        · have hne : X ≠ ⟨x, hx⟩ := fun h => hX (by rw [h])
          by_cases hle : x + 1 ≤ X.val
          · have hidx : X.val - x = (X.val - (x + 1)) + 1 := by omega
            have hle' : x ≤ X.val := by omega
            simp [hne, hle, hle', hidx]
          · have hle' : ¬ x ≤ X.val := by omega
            simp [hne, hle, hle']
      · simp [hY]
    · have : ¬ x ≤ X.val := by omega
      simp [this]

/-- A row of bits collides where a 1 meets an on pixel inside the display (41_display.md R80). -/
theorem Canvas.drawBits_collision (y : Fin 32) :
    ∀ (bits : List Bool) (x : Nat) (c : Canvas),
      (Canvas.drawBits y x bits c).collision = true ↔
        c.collision = true ∨ ∃ X : Fin 64, x ≤ X.val ∧ bits.getD (X.val - x) false = true ∧ c.display.pix X y = true
  | [], x, c => by simp [Canvas.drawBits]
  | bit :: bits, x, c => by
    simp only [Canvas.drawBits]
    split
    · rename_i hx
      rw [Canvas.drawBits_collision y bits (x + 1), Canvas.toggle_collision]
      simp only [Bool.or_eq_true, Bool.and_eq_true, Canvas.toggle_pix]
      constructor
      · rintro ((h | ⟨hb, hp⟩) | ⟨X, hX, hb, hp⟩)
        · exact .inl h
        · exact .inr ⟨⟨x, hx⟩, by simp, by simpa using hb, hp⟩
        · have hne : X ≠ ⟨x, hx⟩ := fun h => by rw [h] at hX; simp at hX
          refine .inr ⟨X, by omega, ?_, by simpa [hne] using hp⟩
          have hidx : X.val - x = (X.val - (x + 1)) + 1 := by omega
          simpa [hidx] using hb
      · rintro (h | ⟨X, hX, hb, hp⟩)
        · exact .inl (.inl h)
        · by_cases he : X.val = x
          · subst he
            exact .inl (.inr ⟨by simpa using hb, hp⟩)
          · have hne : X ≠ ⟨x, hx⟩ := fun h => he (by rw [h])
            refine .inr ⟨X, by omega, ?_, by simpa [hne] using hp⟩
            have hidx : X.val - x = (X.val - (x + 1)) + 1 := by omega
            simpa [hidx] using hb
    · have : ¬ ∃ X : Fin 64, x ≤ X.val ∧ (bit :: bits).getD (X.val - x) false = true ∧ c.display.pix X y = true := by
        rintro ⟨X, hX, -⟩
        omega
      simp only [this, or_false]

/-- Bit `k` of a row, from the left (41_display.md R79). -/
theorem rowBits_getD (b : Byte) (k : Nat) : (rowBits b).getD k false = (decide (k < 8) && b.getLsbD (7 - k)) := by
  rcases k with _ | _ | _ | _ | _ | _ | _ | _ | k <;> simp [rowBits]

/-- What sprite rows starting at (x0, y) have at a pixel. -/
def rowsBit (x0 : Fin 64) (y : Nat) (bytes : List Byte) (X : Fin 64) (Y : Fin 32) : Bool :=
  decide (y ≤ Y.val ∧ x0.val ≤ X.val) && (rowBits (bytes.getD (Y.val - y) 0)).getD (X.val - x0.val) false

theorem rowsBit_nil (x0 : Fin 64) (y : Nat) (X : Fin 64) (Y : Fin 32) : rowsBit x0 y [] X Y = false := by
  simp only [rowsBit, rowBits_getD]
  simp

theorem rowsBit_cons (x0 : Fin 64) (y : Nat) (b : Byte) (bs : List Byte) (X : Fin 64) (Y : Fin 32) :
    rowsBit x0 y (b :: bs) X Y =
      if Y.val = y then decide (x0.val ≤ X.val) && (rowBits b).getD (X.val - x0.val) false else rowsBit x0 (y + 1) bs X Y := by
  unfold rowsBit
  split
  · rename_i h
    simp [h]
  · by_cases hle : y + 1 ≤ Y.val
    · have hidx : Y.val - y = (Y.val - (y + 1)) + 1 := by omega
      have hle' : y ≤ Y.val := by omega
      simp [hidx, hle, hle']
    · have hle' : ¬ y ≤ Y.val := by omega
      simp [hle, hle']

/-- The draw loop XORs the sprite into the display (41_display.md R80, R82). -/
theorem Canvas.drawRows_pix (x0 : Fin 64) (X : Fin 64) (Y : Fin 32) :
    ∀ (bytes : List Byte) (y : Nat) (c : Canvas),
      (Canvas.drawRows x0 y bytes c).display.pix X Y = (c.display.pix X Y ^^ rowsBit x0 y bytes X Y)
  | [], y, c => by simp [Canvas.drawRows, rowsBit_nil]
  | b :: bs, y, c => by
    simp only [Canvas.drawRows, rowsBit_cons]
    split
    · rename_i hy
      rw [Canvas.drawRows_pix x0 X Y bs (y + 1), Canvas.drawBits_pix]
      by_cases hY : Y.val = y
      · have hne : Y = ⟨y, hy⟩ := Fin.ext hY
        have hlt : ¬ y + 1 ≤ Y.val := by omega
        rw [if_pos hY]
        simp [rowsBit, hne]
      · have hne : Y ≠ ⟨y, hy⟩ := fun h => hY (by rw [h])
        rw [if_neg hY]
        simp [hne]
    · have hY : ¬ Y.val = y := by omega
      have hle : ¬ y + 1 ≤ Y.val := by omega
      simp [rowsBit, hY, hle]

/-- The draw loop collides where the sprite meets an on pixel of the display before it (41_display.md R80). -/
theorem Canvas.drawRows_collision (x0 : Fin 64) :
    ∀ (bytes : List Byte) (y : Nat) (c : Canvas),
      (Canvas.drawRows x0 y bytes c).collision = true ↔
        c.collision = true ∨ ∃ X Y, rowsBit x0 y bytes X Y = true ∧ c.display.pix X Y = true
  | [], y, c => by simp [Canvas.drawRows, rowsBit_nil]
  | b :: bs, y, c => by
    simp only [Canvas.drawRows, rowsBit_cons]
    split
    · rename_i hy
      rw [Canvas.drawRows_collision x0 bs (y + 1), Canvas.drawBits_collision]
      simp only [Canvas.drawBits_pix]
      constructor
      · rintro ((h | ⟨X, hX, hb, hp⟩) | ⟨X, Y, hb, hp⟩)
        · exact .inl h
        · exact .inr ⟨X, ⟨y, hy⟩, by rw [if_pos rfl, decide_eq_true hX, hb]; rfl, hp⟩
        · have hlt : y + 1 ≤ Y.val := by
            by_contra hlt
            simp [rowsBit, hlt] at hb
          have hne : Y ≠ ⟨y, hy⟩ := fun h => by rw [h] at hlt; simp at hlt
          exact .inr ⟨X, Y, by rw [if_neg (by omega)]; exact hb, by simpa [hne] using hp⟩
      · rintro (h | ⟨X, Y, hb, hp⟩)
        · exact .inl (.inl h)
        · by_cases hY : Y.val = y
          · have hne : Y = ⟨y, hy⟩ := Fin.ext hY
            rw [if_pos hY, Bool.and_eq_true, decide_eq_true_eq] at hb
            exact .inl (.inr ⟨X, hb.1, hb.2, hne ▸ hp⟩)
          · have hne : Y ≠ ⟨y, hy⟩ := fun h => hY (by rw [h])
            rw [if_neg hY] at hb
            exact .inr ⟨X, Y, hb, by simpa [hne] using hp⟩
    · have : ¬ ∃ X Y, (if Y.val = y then decide (x0.val ≤ X.val) && (rowBits b).getD (X.val - x0.val) false
          else rowsBit x0 (y + 1) bs X Y) = true ∧ c.display.pix X Y = true := by
        rintro ⟨X, Y, hb, -⟩
        have hle : ¬ y + 1 ≤ Y.val := by omega
        rw [if_neg (by omega)] at hb
        simp [rowsBit, hle] at hb
      simp only [this, or_false]

end Sys2Proof.Machine
end

