-- ==== Sys2Proof/Laws/Exec.lean ====
section
/-! SUPPORT. What the meanings do: the completed draw in closed form, and what `exec` can answer (spec 41 to 44). -/

namespace Sys2Proof.Machine

/-! ### The completed draw -/

theorem State.spriteRow_val (s : State) (y : Nibble) : (s.spriteRow y).val = (s.readV y).toNat % 32 := by
  simp only [State.spriteRow]
  omega

theorem State.spriteRows_eq (s : State) (y n : Nibble) :
    s.spriteRows y n = min n.toNat (32 - (s.readV y).toNat % 32) := by
  simp only [State.spriteRows, State.spriteRow_val]

/-- The rows a DXYN reads when they all lie inside memory (41_display.md R79). -/
def State.spriteBytes (s : State) (y n : Nibble) : List Byte :=
  (List.range (s.spriteRows y n)).map fun r => s.byteAt (s.i.toNat + r)

/-- The rows as read have at a pixel what the sprite has there (41_display.md R79, R82). -/
theorem State.rowsBit_spriteBytes (s : State) (x y n : Nibble) (X : Fin 64) (Y : Fin 32) :
    rowsBit (s.spriteCol x) (s.spriteRow y).val (s.spriteBytes y n) X Y = spriteBit s x y n X Y := by
  have hY := Y.isLt
  simp only [rowsBit, spriteBit, rowBits_getD, State.spriteRow_val, State.spriteCol, State.spriteBytes, State.spriteRows_eq]
  generalize (s.readV x).toNat % 64 = x0
  generalize (s.readV y).toNat % 32 = y0
  by_cases hrow : Y.val - y0 < min n.toNat (32 - y0)
  · have hg : ((List.range (min n.toNat (32 - y0))).map fun r => s.byteAt (s.i.toNat + r)).getD (Y.val - y0) 0 =
        s.byteAt (s.i.toNat + (Y.val - y0)) := by
      rw [List.getD_eq_getElem _ _ (by simpa using hrow)]
      simp
    have key : (decide (y0 ≤ Y.val ∧ x0 ≤ X.val) && decide (X.val - x0 < 8)) =
        decide (x0 ≤ X.val ∧ X.val < x0 + 8 ∧ y0 ≤ Y.val ∧ Y.val < y0 + n.toNat) := by
      rw [Bool.eq_iff_iff]
      simp only [Bool.and_eq_true, decide_eq_true_eq]
      omega
    rw [hg, ← Bool.and_assoc, key]
  · have hg : ((List.range (min n.toNat (32 - y0))).map fun r => s.byteAt (s.i.toNat + r)).getD (Y.val - y0) 0 = 0 := by
      rw [List.getD_eq_default]
      simpa using Nat.le_of_not_lt hrow
    have key : decide (x0 ≤ X.val ∧ X.val < x0 + 8 ∧ y0 ≤ Y.val ∧ Y.val < y0 + n.toNat) = false := by
      rw [decide_eq_false_iff_not]
      omega
    rw [hg, key]
    simp

/-- A DXYN whose rows all lie inside memory completes (41_display.md R78). -/
theorem execDrw_completes (x y n : Nibble) (s : State) (h : SpriteReadable s y n) :
    execDrw x y n s = .next (s.drawSprite x y (s.spriteBytes y n)) := by
  unfold execDrw
  rw [State.memReadRows_ok s _ _ (by rw [State.spriteRows_eq]; exact h)]
  rfl

/-- A DXYN with a row outside memory faults at the first such address (41_display.md R84). -/
theorem execDrw_faults (x y n : Nibble) (s : State) (r : Nat) (hr : r < min n.toNat (32 - (s.readV y).toNat % 32))
    (hq : ∀ q, q < r → s.i.toNat + q < 4096) (hbad : 4096 ≤ s.i.toNat + r) :
    execDrw x y n s =
      .next (s.raiseInInstr .oobSpriteRead (BitVec.ofNat 16 (s.i.toNat + r)) (encode (.drw x y n))) := by
  unfold execDrw
  rw [State.memReadRows_error s _ _ r (by rw [State.spriteRows_eq]; exact hr) hq hbad]

/-- The two things a DXYN can do (41_display.md R78, R84). -/
theorem execDrw_cases (x y n : Nibble) (s : State) :
    (SpriteReadable s y n ∧ execDrw x y n s = .next (s.drawSprite x y (s.spriteBytes y n))) ∨
      ∃ r, r < min n.toNat (32 - (s.readV y).toNat % 32) ∧ 4096 ≤ s.i.toNat + r ∧ (∀ q, q < r → s.i.toNat + q < 4096) ∧
        execDrw x y n s =
          .next (s.raiseInInstr .oobSpriteRead (BitVec.ofNat 16 (s.i.toNat + r)) (encode (.drw x y n))) := by
  rcases memReadRows_cases s.i.toNat (min n.toNat (32 - (s.readV y).toNat % 32)) with h | ⟨r, hr, hq, hbad⟩
  · exact .inl ⟨h, execDrw_completes x y n s h⟩
  · exact .inr ⟨r, hr, hbad, hq, execDrw_faults x y n s r hr hq hbad⟩

/-- The pixels after a completed draw (41_display.md R80). -/
theorem State.drawSprite_pix (s : State) (x y n : Nibble) (X : Fin 64) (Y : Fin 32) :
    (s.drawSprite x y (s.spriteBytes y n)).display.pix X Y = (s.display.pix X Y ^^ spriteBit s x y n X Y) := by
  simp only [State.drawSprite, State.emitFrame_display, State.writeV_display, Canvas.drawRows_pix,
    State.rowsBit_spriteBytes]

/-- `VF` after a completed draw (41_display.md R80). -/
theorem State.drawSprite_vf (s : State) (x y n : Nibble) :
    (s.drawSprite x y (s.spriteBytes y n)).readV vf =
      flagByte (decide (∃ X Y, spriteBit s x y n X Y = true ∧ s.display.pix X Y = true)) := by
  simp only [State.drawSprite]
  rw [State.readV_congr (State.emitFrame_v _), State.readV_writeV_same]
  have h : (Canvas.drawRows (s.spriteCol x) (s.spriteRow y).val (s.spriteBytes y n) ⟨s.display, false⟩).collision =
      decide (∃ X Y, spriteBit s x y n X Y = true ∧ s.display.pix X Y = true) := by
    rw [Bool.eq_iff_iff, Canvas.drawRows_collision, decide_eq_true_eq]
    simp only [State.rowsBit_spriteBytes, Bool.false_eq_true, false_or]
  rw [h]

/-- A completed draw changes the display, `VF` and the frame hand-off (41_display.md R78, R81). -/
theorem State.drawSprite_same (s : State) (x y : Nibble) (bytes : List Byte) :
    SameExcept [vf] [.display, .run, .pendingFrame] s (s.drawSprite x y bytes) := by
  constructor <;> intros <;> first | rfl | (simp_all; done) | skip
  rename_i r hr
  rw [State.drawSprite, State.readV_congr (State.emitFrame_v _), State.readV_writeV_other _ _ (by simpa using hr)]
  rfl

/-! ### What `exec` can answer -/

/-- The frame of a change of `pc` alone. -/
theorem sameExcept_writePc (s : State) (w : Word) : SameExcept [] [.pc] s (s.writePc w) := by
  constructor <;> intros <;> first | rfl | simp_all

/-- Where a skip leaves `pc` (43_skip.md R93). -/
theorem State.skipIf_pc (s : State) (b : Bool) : (s.skipIf b).pc = if b then s.pc + 2 else s.pc := by
  cases b <;> rfl

theorem sameExcept_skipIf (s : State) (b : Bool) : SameExcept [] [.pc] s (s.skipIf b) := by
  unfold State.skipIf
  split
  · exact sameExcept_writePc s _
  · constructor <;> intros <;> rfl

/-- A frame with fewer registers and parts is one with more. -/
theorem SameExcept.mono {s t : State} {r r' : List Nibble} {p p' : List Part} (h : SameExcept r p s t)
    (hr : ∀ x ∈ r, x ∈ r') (hp : ∀ x ∈ p, x ∈ p') : SameExcept r' p' s t where
  v x hx := h.v x fun h' => hx (hr x h')
  i h' := h.i fun h'' => h' (hp _ h'')
  pc h' := h.pc fun h'' => h' (hp _ h'')
  stack h' := h.stack fun h'' => h' (hp _ h'')
  display h' := h.display fun h'' => h' (hp _ h'')
  run h' := h.run fun h'' => h' (hp _ h'')
  pendingFrame h' := h.pendingFrame fun h'' => h' (hp _ h'')
  warnings h' := h.warnings fun h'' => h' (hp _ h'')
  dt := h.dt
  st := h.st
  faultCause := h.faultCause
  faultPc := h.faultPc
  faultAddr := h.faultAddr
  faultWord := h.faultWord
  params := h.params
  inputs := h.inputs
  idle := h.idle
  requestHeld := h.requestHeld
  delivered := h.delivered
  bytes := h.bytes

/-- A completed instruction leaves memory as data untouched too, so that equal bytes are equal lists (20_memory.md R41). -/
def Completes (s t : State) : Prop :=
  ∃ v i pc stack display run pending warnings,
    t = { s with
      v := v, i := i, pc := pc, stack := stack, display := display, run := run, pendingFrame := pending, warnings := warnings }

theorem completes_writeV (s : State) (x : Nibble) (b : Byte) : Completes s (s.writeV x b) :=
  ⟨_, _, _, _, _, _, _, _, rfl⟩

theorem completes_writeResultAndFlag (s : State) (x : Nibble) (r : Byte) (f : Bool) :
    Completes s (s.writeResultAndFlag x r f) := by
  obtain ⟨v, hv⟩ := s.writeResultAndFlag_eq x r f
  rw [hv]
  exact ⟨_, _, _, _, _, _, _, _, rfl⟩

theorem completes_skipIf (s : State) (b : Bool) : Completes s (s.skipIf b) := by
  unfold State.skipIf
  split <;> exact ⟨_, _, _, _, _, _, _, _, rfl⟩

/-- Everything `exec` can do: it answers a next state, which is either the precise entry of the instruction's own fault or
a completed instruction within its frame (40_step_cycle.md R70, 60_exceptions.md R114, R121). -/
theorem exec_answers (i : Instr) (s : State) :
    ∃ t, exec i s = .next t ∧
      ((∃ c d w, (c = .oobSpriteRead ∨ c = .stackOverflow) ∧ t = s.raiseInInstr c d w) ∨
        (Completes s t ∧ SameExcept (destRegs i) (destParts i) s t)) := by
  cases i with
  | cls =>
    exact ⟨_, rfl, .inr ⟨⟨_, _, _, _, _, _, _, _, rfl⟩, by constructor <;> intros <;> first | rfl | simp_all [destParts]⟩⟩
  | ret =>
    show ∃ t, execRet s = .next t ∧ _
    unfold execRet
    split
    · exact ⟨_, rfl, .inr ⟨⟨_, _, _, _, _, _, _, _, rfl⟩, by constructor <;> intros <;> first | rfl | simp_all [destParts]⟩⟩
    · exact ⟨_, rfl, .inr ⟨⟨_, _, _, _, _, _, _, _, rfl⟩, by constructor <;> intros <;> first | rfl | simp_all [destParts]⟩⟩
  | jp nnn => exact ⟨_, rfl, .inr ⟨⟨_, _, _, _, _, _, _, _, rfl⟩, sameExcept_writePc s _⟩⟩
  | call nnn =>
    show ∃ t, execCall nnn s = .next t ∧ _
    unfold execCall
    split
    · exact ⟨_, rfl, .inl ⟨_, _, _, .inr rfl, rfl⟩⟩
    · exact ⟨_, rfl, .inr ⟨⟨_, _, _, _, _, _, _, _, rfl⟩, by constructor <;> intros <;> first | rfl | simp_all [destParts]⟩⟩
  | seImm x nn => exact ⟨_, rfl, .inr ⟨completes_skipIf s _, sameExcept_skipIf s _⟩⟩
  | sneImm x nn => exact ⟨_, rfl, .inr ⟨completes_skipIf s _, sameExcept_skipIf s _⟩⟩
  | seReg x y => exact ⟨_, rfl, .inr ⟨completes_skipIf s _, sameExcept_skipIf s _⟩⟩
  | sneReg x y => exact ⟨_, rfl, .inr ⟨completes_skipIf s _, sameExcept_skipIf s _⟩⟩
  | ldImm x nn => exact ⟨_, rfl, .inr ⟨completes_writeV s _ _, sameExcept_writeV s _ _⟩⟩
  | addImm x nn => exact ⟨_, rfl, .inr ⟨completes_writeV s _ _, sameExcept_writeV s _ _⟩⟩
  | ldReg x y => exact ⟨_, rfl, .inr ⟨completes_writeV s _ _, sameExcept_writeV s _ _⟩⟩
  | or x y => exact ⟨_, rfl, .inr ⟨completes_writeV s _ _, sameExcept_writeV s _ _⟩⟩
  | and x y => exact ⟨_, rfl, .inr ⟨completes_writeV s _ _, sameExcept_writeV s _ _⟩⟩
  | xor x y => exact ⟨_, rfl, .inr ⟨completes_writeV s _ _, sameExcept_writeV s _ _⟩⟩
  | addReg x y => exact ⟨_, rfl, .inr ⟨completes_writeResultAndFlag s _ _ _, sameExcept_writeResultAndFlag s _ _ _⟩⟩
  | sub x y => exact ⟨_, rfl, .inr ⟨completes_writeResultAndFlag s _ _ _, sameExcept_writeResultAndFlag s _ _ _⟩⟩
  | shr x y => exact ⟨_, rfl, .inr ⟨completes_writeResultAndFlag s _ _ _, sameExcept_writeResultAndFlag s _ _ _⟩⟩
  | subn x y => exact ⟨_, rfl, .inr ⟨completes_writeResultAndFlag s _ _ _, sameExcept_writeResultAndFlag s _ _ _⟩⟩
  | shl x y => exact ⟨_, rfl, .inr ⟨completes_writeResultAndFlag s _ _ _, sameExcept_writeResultAndFlag s _ _ _⟩⟩
  | ldI nnn =>
    exact ⟨_, rfl, .inr ⟨⟨_, _, _, _, _, _, _, _, rfl⟩, by constructor <;> intros <;> first | rfl | simp_all [destParts]⟩⟩
  | drw x y n =>
    show ∃ t, execDrw x y n s = .next t ∧ _
    rcases execDrw_cases x y n s with ⟨-, h⟩ | ⟨r, -, -, -, h⟩
    · exact ⟨_, h, .inr ⟨⟨_, _, _, _, _, _, _, _, rfl⟩, State.drawSprite_same s x y _⟩⟩
    · exact ⟨_, h, .inl ⟨_, _, _, .inl rfl, rfl⟩⟩

/-! ### Arithmetic -/

theorem addWrap_toNat (a b : Byte) : (addWrap a b).toNat = (a.toNat + b.toNat) % 256 := by
  simp only [addWrap, BitVec.toNat_ofNat]
  omega

theorem subWrap_toNat (a b : Byte) : (subWrap a b).toNat = (a.toNat + 256 - b.toNat) % 256 := by
  have h1 := a.isLt
  have h2 := b.isLt
  simp only [subWrap, BitVec.toNat_ofInt]
  omega

theorem addWrap_eq (a b : Byte) : addWrap a b = a + b :=
  BitVec.eq_of_toNat_eq (by rw [addWrap_toNat, BitVec.toNat_add])

theorem subWrap_eq (a b : Byte) : subWrap a b = a - b := by
  apply BitVec.eq_of_toNat_eq
  have h1 := a.isLt
  have h2 := b.isLt
  rw [subWrap_toNat, BitVec.toNat_sub]
  omega

theorem shiftRight1_toNat (v : Byte) : (shiftRight1 v).toNat = v.toNat / 2 := by
  have := v.isLt
  simp only [shiftRight1, BitVec.toNat_ofNat]
  omega

theorem shiftLeft1_toNat (v : Byte) : (shiftLeft1 v).toNat = v.toNat * 2 % 256 := by
  simp only [shiftLeft1, BitVec.toNat_ofNat]
  omega

theorem zextAddr_toNat (nnn : Addr12) : (zextAddr nnn).toNat = nnn.toNat := by
  have := nnn.isLt
  simp only [zextAddr, BitVec.toNat_setWidth]
  omega

end Sys2Proof.Machine
end

