-- ==== Sys2Proof/Laws/Encoding.lean ====
section
/-! SUPPORT. The fields of an encoded word (spec 30_encoding.md R53). -/

namespace Sys2Proof

/-- The low 12 bits of an opcode base are clear. -/
theorem getElem_base {base : Word} (hb : base &&& 0x0FFF = 0) (i : Nat) (hi : i < 12) : base[i] = false := by
  have h := congrArg (fun w : Word => w.getLsbD i) hb
  interval_cases i <;> simpa using h

theorem fieldOp_encXNN {base : Word} (x : Nibble) (nn : Byte) :
    fieldOp (encXNN base x nn) = fieldOp base := by
  unfold fieldOp encXNN
  ext i h
  interval_cases i <;> simp

theorem fieldX_encXNN {base : Word} (hb : base &&& 0x0FFF = 0) (x : Nibble) (nn : Byte) :
    fieldX (encXNN base x nn) = x := by
  unfold fieldX encXNN
  ext i h
  interval_cases i <;> simp [getElem_base hb]

theorem fieldNN_encXNN {base : Word} (hb : base &&& 0x0FFF = 0) (x : Nibble) (nn : Byte) :
    fieldNN (encXNN base x nn) = nn := by
  unfold fieldNN encXNN
  ext i h
  interval_cases i <;> simp [getElem_base hb]

theorem fieldOp_encXYN {base : Word} (x y n : Nibble) : fieldOp (encXYN base x y n) = fieldOp base := by
  unfold fieldOp encXYN
  ext i h
  interval_cases i <;> simp

theorem fieldX_encXYN {base : Word} (hb : base &&& 0x0FFF = 0) (x y n : Nibble) : fieldX (encXYN base x y n) = x := by
  unfold fieldX encXYN
  ext i h
  interval_cases i <;> simp [getElem_base hb]

theorem fieldY_encXYN {base : Word} (hb : base &&& 0x0FFF = 0) (x y n : Nibble) : fieldY (encXYN base x y n) = y := by
  unfold fieldY encXYN
  ext i h
  interval_cases i <;> simp [getElem_base hb]

theorem fieldN_encXYN {base : Word} (hb : base &&& 0x0FFF = 0) (x y n : Nibble) : fieldN (encXYN base x y n) = n := by
  unfold fieldN encXYN
  ext i h
  interval_cases i <;> simp [getElem_base hb]

theorem fieldOp_encNNN {base : Word} (nnn : Addr12) : fieldOp (encNNN base nnn) = fieldOp base := by
  unfold fieldOp encNNN
  ext i h
  interval_cases i <;> simp

theorem fieldNNN_encNNN {base : Word} (hb : base &&& 0x0FFF = 0) (nnn : Addr12) : fieldNNN (encNNN base nnn) = nnn := by
  unfold fieldNNN encNNN
  ext i h
  interval_cases i <;> simp [getElem_base hb]

/-! ### The parts a row of the table masks -/

theorem encXNN_and_family {base : Word} (x : Nibble) (nn : Byte) : encXNN base x nn &&& 0xF000 = base &&& 0xF000 := by
  unfold encXNN
  ext i h
  interval_cases i <;> simp

theorem encNNN_and_family {base : Word} (nnn : Addr12) : encNNN base nnn &&& 0xF000 = base &&& 0xF000 := by
  unfold encNNN
  ext i h
  interval_cases i <;> simp

theorem encXYN_and_family {base : Word} (x y n : Nibble) : encXYN base x y n &&& 0xF000 = base &&& 0xF000 := by
  unfold encXYN
  ext i h
  interval_cases i <;> simp

theorem encXYN_and_sub {base : Word} (x y n : Nibble) :
    encXYN base x y n &&& 0xF00F = (base ||| n.setWidth 16) &&& 0xF00F := by
  unfold encXYN
  ext i h
  interval_cases i <;> simp

end Sys2Proof
end

