-- ==== Sys2Proof/Laws/PerInstr.lean ====
section
/-! SUPPORT. Per instruction: its encoding is a word of its own row of spec/opcode_table.json. -/

namespace Sys2Proof.Laws.TableRow

/-- The word of the instruction has the bits its row of the opcode table fixes. -/
def Statement (i : Instr) : Prop := encode i &&& i.row.mask = i.row.pattern

theorem cls : Statement .cls := rfl

theorem ret : Statement .ret := rfl

theorem jp (nnn : Addr12) : Statement (.jp nnn) := encNNN_and_family nnn

theorem call (nnn : Addr12) : Statement (.call nnn) := encNNN_and_family nnn

theorem seImm (x : Nibble) (nn : Byte) : Statement (.seImm x nn) := encXNN_and_family x nn

theorem sneImm (x : Nibble) (nn : Byte) : Statement (.sneImm x nn) := encXNN_and_family x nn

theorem seReg (x y : Nibble) : Statement (.seReg x y) := encXYN_and_sub x y 0

theorem ldImm (x : Nibble) (nn : Byte) : Statement (.ldImm x nn) := encXNN_and_family x nn

theorem addImm (x : Nibble) (nn : Byte) : Statement (.addImm x nn) := encXNN_and_family x nn

theorem ldReg (x y : Nibble) : Statement (.ldReg x y) := encXYN_and_sub x y 0

theorem or (x y : Nibble) : Statement (.or x y) := encXYN_and_sub x y 1

theorem and (x y : Nibble) : Statement (.and x y) := encXYN_and_sub x y 2

theorem xor (x y : Nibble) : Statement (.xor x y) := encXYN_and_sub x y 3

theorem addReg (x y : Nibble) : Statement (.addReg x y) := encXYN_and_sub x y 4

theorem sub (x y : Nibble) : Statement (.sub x y) := encXYN_and_sub x y 5

theorem shr (x y : Nibble) : Statement (.shr x y) := encXYN_and_sub x y 6

theorem subn (x y : Nibble) : Statement (.subn x y) := encXYN_and_sub x y 7

theorem shl (x y : Nibble) : Statement (.shl x y) := encXYN_and_sub x y 0xE

theorem sneReg (x y : Nibble) : Statement (.sneReg x y) := encXYN_and_sub x y 0

theorem ldI (nnn : Addr12) : Statement (.ldI nnn) := encNNN_and_family nnn

theorem drw (x y n : Nibble) : Statement (.drw x y n) := encXYN_and_family x y n

end Sys2Proof.Laws.TableRow
end

