-- ==== Sys2Proof/Laws/Step.lean ====
section
/-! SUPPORT. The step: what a step request and each event do, case by case (spec 40_step_cycle.md R71, 60_exceptions.md R126 to
R131). -/

namespace Sys2Proof.Machine

/-! ### Fetch, decode, execute -/

theorem State.stepRequest_running {s : State} (h : s.run = .running) : s.stepRequest = s.runInstr := by
  unfold State.stepRequest
  rw [h]

theorem State.stepRequest_frameWait {s : State} (h : s.run = .frameWait) : s.stepRequest = .next s := by
  unfold State.stepRequest
  rw [h]

theorem State.stepRequest_halted {s : State} (h : s.run = .halted) : s.stepRequest = .next s := by
  unfold State.stepRequest
  rw [h]

/-- A fetch inside memory (40_step_cycle.md R68). -/
theorem State.runInstr_fetched {s : State} (h : s.pc.toNat + 1 < 4096) : s.runInstr = s.runWord s.nextWord := by
  unfold State.runInstr
  rw [s.memRead2_ok h]
  rfl

/-- A fetch outside memory (60_exceptions.md R118). -/
theorem State.runInstr_outside {s : State} (h : 4096 ≤ s.pc.toNat + 1) :
    s.runInstr = .next (s.raise .oobFetch s.pc (if 4096 ≤ s.pc.toNat then s.pc else 0x1000) 0) := by
  unfold State.runInstr
  rw [s.memRead2_error h]
  have := s.pc.isLt
  by_cases h4 : 4096 ≤ s.pc.toNat
  · simp [h4]
  · have h5 : s.pc.toNat + 1 = 4096 := by omega
    simp [h4, h5]

theorem State.runWord_decoded {s : State} {w : Word} {i : Instr} (h : decodeFor s.params w = .ok i) :
    s.runWord w = exec i s.advancePc := by
  unfold State.runWord
  rw [h]

theorem State.runWord_unrecognised {s : State} {w : Word} {e : DecodeError} (h : decodeFor s.params w = .error e) :
    s.runWord w =
      if s.params.strictDecode then .next (s.raise .unknownOpcode s.pc 0 w) else .next s.advancePc := by
  unfold State.runWord
  rw [h]

/-- Everything a step request in RUN can do: a fetch fault, a decoded instruction, or an unrecognised word. -/
theorem State.runInstr_cases (s : State) :
    (4096 ≤ s.pc.toNat + 1 ∧
      s.runInstr = .next (s.raise .oobFetch s.pc (if 4096 ≤ s.pc.toNat then s.pc else 0x1000) 0)) ∨
    (s.pc.toNat + 1 < 4096 ∧ ∃ i, decodeFor s.params s.nextWord = .ok i ∧ s.runInstr = exec i s.advancePc) ∨
    (s.pc.toNat + 1 < 4096 ∧ ∃ e, decodeFor s.params s.nextWord = .error e ∧
      s.runInstr =
        if s.params.strictDecode then .next (s.raise .unknownOpcode s.pc 0 s.nextWord) else .next s.advancePc) := by
  rcases Nat.lt_or_ge (s.pc.toNat + 1) 4096 with h | h
  · rw [State.runInstr_fetched h]
    cases hd : decodeFor s.params s.nextWord with
    | ok i => exact .inr (.inl ⟨h, i, rfl, State.runWord_decoded hd⟩)
    | error e => exact .inr (.inr ⟨h, e, rfl, State.runWord_unrecognised hd⟩)
  · exact .inl ⟨h, State.runInstr_outside h⟩

/-! ### Events -/

/-- A step request in RUN is answered at once (40_step_cycle.md R71). -/
theorem State.onStepRequest_running {s : State} (h : s.run = .running) : s.onStepRequest = s.stepRequest := by
  unfold State.onStepRequest
  rw [h]

/-- What AcceptFrame does (60_exceptions.md R128). -/
theorem State.acceptFrame_eq {s : State} {f : Display} (h : s.run = .frameWait) (hf : s.pendingFrame = some f) :
    s.acceptFrame = some { s with delivered := s.delivered ++ [f], pendingFrame := none, run := .running } := by
  unfold State.acceptFrame
  rw [h, hf]

/-- AcceptFrame is enabled only in FRAME_WAIT with a frame pending (60_exceptions.md R128). -/
theorem State.acceptFrame_some {s t : State} (h : s.acceptFrame = some t) :
    s.run = .frameWait ∧ ∃ f, s.pendingFrame = some f ∧
      t = { s with delivered := s.delivered ++ [f], pendingFrame := none, run := .running } := by
  unfold State.acceptFrame at h
  split at h
  · rename_i f hr hf
    exact ⟨hr, f, hf, (Option.some.inj h).symm⟩
  · cases h
  · cases h
  · cases h

theorem State.acceptFrame_none {s : State} (h : s.run ≠ .frameWait) : s.acceptFrame = none := by
  unfold State.acceptFrame
  split
  · exact absurd ‹s.run = _› h
  · rfl
  · rfl
  · rfl

/-- With no event listed a core that does not wait meets the driver only. -/
theorem State.onIdle_driver {s : State} (h : s.run ≠ .frameWait) : s.onIdle = s.onIdleDriver := by
  simp [State.onIdle, State.acceptFrame_none h]

/-- With no event listed a core whose sink refuses meets the driver only. -/
theorem State.onIdle_refused {s : State} (h : s.idle.sinkAccepts = false) : s.onIdle = s.onIdleDriver := by
  simp [State.onIdle, h]

theorem State.onIdle_requests {s : State} (h : s.run ≠ .frameWait) (hd : s.idle.driverRequests = true) :
    s.onIdle = s.onStepRequest := by
  simp [State.onIdle_driver h, State.onIdleDriver, hd]

theorem State.onIdle_silent {s : State} (h : s.run ≠ .frameWait) (hd : s.idle.driverRequests = false) :
    s.onIdle = .next s := by
  simp [State.onIdle_driver h, State.onIdleDriver, hd]

/-- With no event listed a sink that accepts takes the pending frame, and a request that waits, or that the driver sends, is
completed (40_step_cycle.md R73). -/
theorem State.onIdle_accepts {s : State} {f : Display} (h : s.run = .frameWait) (hf : s.pendingFrame = some f)
    (ha : s.idle.sinkAccepts = true) (hi : s.inputs = []) :
    s.onIdle =
      if s.requestHeld || s.idle.driverRequests then (s.accepted f).stepRequest else .next (s.accepted f) := by
  have hacc : ∀ b : Bool, ({ s with requestHeld := b } : State).acceptFrame =
      some { s with delivered := s.delivered ++ [f], pendingFrame := none, run := .running, requestHeld := b } :=
    fun b => State.acceptFrame_eq (s := { s with requestHeld := b }) h hf
  have ht : s.inputs.tail = s.inputs := by rw [hi, List.tail_nil]
  simp only [State.onIdle, ha, State.acceptFrame_eq h hf, Option.isSome_some, Bool.and_self, if_true, State.onIdleSink,
    State.onAcceptFrame, hacc, State.accepted, ht]
  cases s.requestHeld || s.idle.driverRequests <;> rfl

/-- Where no event is listed there is none to remove. -/
theorem State.afterEvent_nil {s : State} (h : s.inputs = []) : s.afterEvent = s := by
  unfold State.afterEvent
  rw [h, List.tail_nil, ← h]

/-- Everything the reset event can do (70_reset_and_hazards.md R136, R140). -/
theorem State.onReset_next {s t : State} {image : List Byte} (h : s.onReset image = .next t) :
    ∃ fresh, construct s.params image = some fresh ∧ t = { fresh with inputs := s.inputs, idle := s.idle, delivered := s.delivered } := by
  unfold State.onReset State.reconstruct at h
  cases hc : construct s.params image with
  | none =>
    rw [hc] at h
    cases h
  | some fresh =>
    rw [hc] at h
    cases h
    exact ⟨fresh, rfl, rfl⟩

/-- The step when a request is next and the core is in RUN. -/
theorem step_requestNext {s : State} (h : RequestNext s) : step s = s.afterEvent.runInstr := by
  obtain ⟨hr, hi⟩ := h
  have ha : s.afterEvent.run = .running := hr
  rw [← State.stepRequest_running ha]
  unfold step State.nextEvent
  cases hin : s.inputs with
  | nil =>
    have hd : s.idle.driverRequests = true := by
      rw [hin] at hi
      simpa using hi
    rw [State.afterEvent_nil hin]
    exact (State.onIdle_requests (by rw [hr]; decide) hd).trans (State.onStepRequest_running hr)
  | cons e rest =>
    rw [hin] at hi
    have he : e = .stepRequest := by simpa using hi
    have hs : ({ s with inputs := rest } : State) = s.afterEvent := by
      unfold State.afterEvent
      rw [hin, List.tail_cons]
    subst he
    show State.onStepRequest { s with inputs := rest } = _
    rw [hs, State.onStepRequest_running ha]

/-- A run of one step more, where the first step answers a next state. -/
theorem core_run_succ {s t : State} {k : Nat} (h : step s = .next t) :
    Host.Core.run Sys2Proof.core (k + 1) s = Host.Core.run Sys2Proof.core k t := by
  have h' : Sys2Proof.core.step s = .next t := h
  have e := Host.Core.run.eq_2 Sys2Proof.core s k
  rw [h'] at e
  exact e

/-- With events listed the step is the oldest; with none it is the idle event. -/
theorem step_listed {s : State} {e : HostEvent} {rest : List HostEvent} (h : s.inputs = e :: rest) :
    step s = ({ s with inputs := rest } : State).onEvent e := by
  simp [step, State.nextEvent, h]

theorem step_idle {s : State} (h : s.inputs = []) : step s = s.onIdle := by
  simp [step, State.nextEvent, h]

/-- The state a step's event is handled in keeps `pc`, parameters and memory. -/
@[simp] theorem State.afterEvent_nextWord (s : State) : s.afterEvent.nextWord = s.nextWord := rfl

end Sys2Proof.Machine
end

