-- ==== Sys2Proof/Tests/Slice0.lean ====
section
/-! SUPPORT. The model's own tests: ill-formed terms, words written out from the encodings of spec/30_encoding.md, single steps
with the results of spec/95_test_vectors.md, and for every statement with hypotheses a state that meets them. -/

namespace Sys2Proof.Tests

open Sys2Proof.Machine

/-! ### Builders -/

/-- The reset state with a word at an address. -/
def putWord (a : Nat) (w : Word) (s : State) : State :=
  (s.memWrite1 a (BitVec.ofNat 8 (w.toNat / 256))).memWrite1 (a + 1) (BitVec.ofNat 8 (w.toNat % 256))

/-- The reset state about to fetch a word at 0x200. -/
def start (w : Word) : State := putWord 0x200 w State.reset

/-- Registers set. -/
def regs (rs : List (Nibble × Byte)) (s : State) : State := rs.foldl (fun s r => s.writeV r.1 r.2) s

/-- The parameters replaced. -/
def under (p : Params) (s : State) : State := { s with params := p }

/-- The draw tests' start: a sprite of bytes at 0x300, `I` on it. -/
def sprite (bytes : List Byte) (w : Word) : State :=
  { start w with mem := Memory.load defaultFont (start w).mem 0x300 bytes, i := 0x300 }

/-- A pixel turned on. -/
def lit (x : Fin 64) (y : Fin 32) (s : State) : State := { s with display := s.display.setPix x y true }

/-- The outcome is a next state of which `f` holds. -/
def next (o : Host.Outcome State Fault Refusal) (f : State → Bool) : Bool :=
  match o with
  | .next t => f t
  | .fault _ => false
  | .refused _ => false

def strict : Params := { Params.default with strictDecode := true }
def resultLast : Params := { Params.default with flagLast := false }
def extended : Params := { Params.default with arith8Ext := true }
def extendedResultLast : Params := { extended with flagLast := false }
def depth2 : Params := { Params.default with stackDepth := some 2 }
def wrapping : Params := { Params.default with timerUnderflow := .wrap }
def truncating : Params := { Params.default with loadOversize := .truncate }

/-! ### Well-formedness: each check refuses an ill-formed term -/

theorem test_wellFormed_refuses_extension : Instr.wellFormed Params.default (.sub 0 1) = false := by decide
theorem test_wellFormed_takes_extension : Instr.wellFormed extended (.sub 0 1) = true := by decide
theorem test_params_refuse_depth_zero : Params.wellFormed { Params.default with stackDepth := some 0 } = false := by decide
theorem test_memory_refuses_unsorted : Memory.wf defaultFont [(0x300, 1), (0x200, 1)] = false := by decide
theorem test_memory_refuses_baseline : Memory.wf defaultFont [(0x050, 0xF0)] = false := by decide
theorem test_memory_refuses_outside : Memory.wf defaultFont [(0x1000, 1)] = false := by decide
theorem test_memory_takes_sorted : Memory.wf defaultFont [(0x050, 0), (0xFFF, 1)] = true := by decide

/-! ### Decoding: words written out bit by bit from the encodings (30_encoding.md R53, R58 to R61), op | x | y | n -/

theorem test_decode_display :
    decode 0b0000_0000_1110_0000 = .ok .cls ∧ decode 0b1101_1010_1011_0101 = .ok (.drw 10 11 5) ∧
    decode 0b1101_1010_1011_0000 = .ok (.drw 10 11 0) := by decide

theorem test_decode_control :
    decode 0b0000_0000_1110_1110 = .ok .ret ∧ decode 0b0001_1010_1011_1100 = .ok (.jp 0xABC) ∧
    decode 0b0010_1010_1011_1100 = .ok (.call 0xABC) := by decide

theorem test_decode_skip :
    decode 0b0011_1010_0101_1100 = .ok (.seImm 10 0x5C) ∧ decode 0b0100_1010_0101_1100 = .ok (.sneImm 10 0x5C) ∧
    decode 0b0101_1010_1011_0000 = .ok (.seReg 10 11) ∧ decode 0b1001_1010_1011_0000 = .ok (.sneReg 10 11) := by decide

theorem test_decode_loads :
    decode 0b0110_1010_0101_1100 = .ok (.ldImm 10 0x5C) ∧ decode 0b0111_1010_0101_1100 = .ok (.addImm 10 0x5C) ∧
    decode 0b1010_1010_1011_1100 = .ok (.ldI 0xABC) ∧ decode 0b1000_1010_1011_0000 = .ok (.ldReg 10 11) := by decide

theorem test_decode_arithmetic :
    decode 0b1000_1010_1011_0001 = .ok (.or 10 11) ∧ decode 0b1000_1010_1011_0010 = .ok (.and 10 11) ∧
    decode 0b1000_1010_1011_0011 = .ok (.xor 10 11) ∧ decode 0b1000_1010_1011_0100 = .ok (.addReg 10 11) ∧
    decode 0b1000_1010_1011_0111 = .ok (.subn 10 11) := by decide

theorem test_decode_extension :
    decodeFor extended 0b1000_1010_1011_0101 = .ok (.sub 10 11) ∧
    decodeFor extended 0b1000_1010_1011_0110 = .ok (.shr 10 11) ∧
    decodeFor extended 0b1000_1010_1011_1110 = .ok (.shl 10 11) := by decide

theorem test_decode_extension_absent :
    decodeFor Params.default 0x8AB5 = .error (.extensionAbsent 0x8AB5) ∧
    decodeFor Params.default 0x8AB6 = .error (.extensionAbsent 0x8AB6) ∧
    decodeFor Params.default 0x8ABE = .error (.extensionAbsent 0x8ABE) := by decide

/-- 95_test_vectors.md section 2. -/
theorem test_decode_unrecognised :
    [0x0000, 0x00E1, 0x00FF, 0x0123, 0x5AB1, 0x8AB8, 0x8AB9, 0x8ABA, 0x8ABB, 0x8ABC, 0x8ABD, 0x8ABF, 0x9AB1, 0xB123, 0xC0FF,
      0xE09E, 0xE0A1, 0xF007, 0xF00A, 0xF015, 0xF018, 0xF01E, 0xF029, 0xF033, 0xF055, 0xF065].all
      (fun w => decode w == .error (.unrecognised w)) = true := by decide

theorem test_decodeBytes :
    decodeBytes Params.default [0x12, 0x34, 0x56] = .ok (.jp 0x234, [0x56]) ∧
    decodeBytes Params.default [0x12] = .error .truncated := by decide

theorem test_decodeTableWord : decodeTableWord 16 0xDAB5 = some (.drw 10 11 5) ∧ decodeTableWord 16 0x8ABE = some (.shl 10 11) ∧
    decodeTableWord 16 0xF065 = none := by decide

/-! ### Memory and fetch (95_test_vectors.md section 3) -/

/-- In this order: fetch_big_endian, fetch_odd, fetch_last_word, fetch_straddles, fetch_outside, memory_write_back. -/
theorem test_fetch :
    (next (step (start 0x1234)) (fun t => t.pc == 0x234) = true) ∧
    (next (step (putWord 0x201 0x602A { State.reset with pc := 0x201 })) (fun t => t.readV 0 == 0x2A && t.pc == 0x203) = true) ∧
    (next (step { State.reset with pc := 0xFFE }) (fun t => t.pc == 0x1000 && t.run == .running) = true) ∧
    (next (step { State.reset with pc := 0xFFF }) (fun t => t.hostStatus == ⟨.halted, .oobFetch, 0xFFF, 0x1000, 0, 0, 0⟩ &&
      t.pc == 0xFFF) = true) ∧
    (next (step { State.reset with pc := 0x1002 }) (fun t => t.hostStatus == ⟨.halted, .oobFetch, 0x1002, 0x1002, 0, 0, 0⟩) =
      true) ∧
    (((State.reset.memWrite1 0x300 7).memWrite1 0x300 0).mem = []) := by
  decide +kernel

/-! ### Unrecognised words (30_encoding.md R63, 60_exceptions.md R120) -/

/-- In this order: unrecognised_no_op, unrecognised_strict. -/
theorem test_unrecognised :
    (next (step (start 0xF065)) (fun t => t.pc == 0x202 && t.run == .running && t.v == State.reset.v && t.i == 0) = true) ∧
    (next (step (under strict (start 0xF065))) (fun t =>
      t.hostStatus == ⟨.halted, .unknownOpcode, 0x200, 0, 0xF065, 0, 0⟩ && t.pc == 0x200) = true) := by
  decide +kernel

/-! ### Display (95_test_vectors.md sections 1 and 4) -/

/-- In this order: cls, drw_S8_DRAW, drw_D3, drw_D7_clips. -/
theorem test_display_1 :
    (next (step (lit 63 31 (regs [(15, 0x77)] (start 0x00E0)))) (fun t =>
      !t.display.pix 63 31 && !t.display.pix 0 0 && t.readV 15 == 0x77 && t.run == .running) = true) ∧
    (next (step (sprite [0xF0] 0xD011)) (fun t =>
      (List.range 8).map (fun k => t.display.pix (Fin.ofNat 64 k) 0) ==
        [true, true, true, true, false, false, false, false] &&
      t.readV 15 == 0 && t.pc == 0x202 && t.run == .frameWait && t.pendingFrame.map (fun f => f.pix 3 0) == some true) = true) ∧
    (next (step (lit 0 0 (sprite [0x81] 0xD011))) (fun t =>
      !t.display.pix 0 0 && t.display.pix 7 0 && t.readV 15 == 1) = true) ∧
    (next (step (regs [(0, 0x7E), (1, 0x3F)] (sprite [0xFF, 0xC3] 0xD012))) (fun t =>
      t.display.pix 62 31 && t.display.pix 63 31 && !t.display.pix 0 31 && !t.display.pix 62 0 && t.readV 15 == 0) = true) := by
  decide +kernel

/-- In this order: drw_D8_faults, drw_D9_row_not_read, drw_D14_old_flag_is_coordinate, drw_twice. -/
theorem test_display_2 :
    (next (step { regs [(15, 0x33)] (start 0xD012) with i := 0xFFF }) (fun t =>
      t.hostStatus == ⟨.halted, .oobSpriteRead, 0x200, 0x1000, 0xD012, 0, 0⟩ && t.readV 15 == 0x33 && t.pc == 0x200 &&
      t.pendingFrame.isNone) = true) ∧
    (next (step (({ regs [(1, 0x1F)] (start 0xD012) with i := 0xFFF } : State).memWrite1 0xFFF 0x80)) (fun t =>
      t.run == .frameWait && t.display.pix 0 31 && t.readV 15 == 0) = true) ∧
    (next (step (lit 2 0 (regs [(15, 2)] (sprite [0x80] 0xDF01)))) (fun t => !t.display.pix 2 0 && t.readV 15 == 1) = true) ∧
    (next (step (putWord 0x202 0xD011 (sprite [0xF0] 0xD011))) (fun t => next (step t) (fun u =>
      !u.display.pix 0 0 && !u.display.pix 3 0 && u.readV 15 == 1 && u.pc == 0x204 && u.delivered.map (fun f => f.pix 3 0) == [true])) = true) := by
  decide +kernel

/-! ### Control transfer (95_test_vectors.md section 5) -/

/-- In this order: jp_C4, call_C5, call_C9, call_C10, ret_C7, ret_C8. -/
theorem test_control :
    (next (step (start 0x1201)) (fun t => t.pc == 0x201) = true) ∧
    (next (step (putWord 0x204 0x2300 { State.reset with pc := 0x204 })) (fun t => t.stack == [0x206] && t.pc == 0x300) = true) ∧
    (next (step (putWord 0x400 0x2500 (under depth2 { State.reset with pc := 0x400, stack := [0x30A, 0x206] }))) (fun t =>
      t.hostStatus == ⟨.halted, .stackOverflow, 0x400, 0, 0x2500, 0, 0⟩ && t.stack == [0x30A, 0x206] && t.pc == 0x400) = true) ∧
    (next (step (putWord 0x400 0x2500 (under depth2 { State.reset with pc := 0x400, stack := [0x206] }))) (fun t =>
      t.stack == [0x402, 0x206] && t.pc == 0x500) = true) ∧
    (next (step { start 0x00EE with stack := [0x30A, 0x206] }) (fun t => t.pc == 0x30A && t.stack == [0x206]) = true) ∧
    (next (step (start 0x00EE)) (fun t =>
      t.pc == 0 && t.stack == [] && t.warnings == [⟨.stackUnderflow, 0x200⟩] && t.run == .running) = true) := by
  decide +kernel

/-! ### Skips (95_test_vectors.md sections 1 and 6) -/

def skipStart (w : Word) : State := regs [(0, 7), (1, 7), (2, 8), (15, 1)] (start w)

/-- In this order: seImm, seImm_flag_register, sneImm, seReg, sneReg. -/
theorem test_skips :
    next (step (skipStart 0x3007)) (fun t => t.pc == 0x204) = true ∧
    next (step (skipStart 0x3008)) (fun t => t.pc == 0x202) = true ∧
    (next (step (skipStart 0x3F01)) (fun t => t.pc == 0x204) = true) ∧
    next (step (skipStart 0x4007)) (fun t => t.pc == 0x202) = true ∧
    next (step (skipStart 0x4008)) (fun t => t.pc == 0x204) = true ∧
    next (step (skipStart 0x5010)) (fun t => t.pc == 0x204) = true ∧
    next (step (skipStart 0x5020)) (fun t => t.pc == 0x202) = true ∧
    next (step (skipStart 0x9010)) (fun t => t.pc == 0x202) = true ∧
    next (step (skipStart 0x9020)) (fun t => t.pc == 0x204) = true := by
  decide +kernel

/-! ### Register operations (95_test_vectors.md section 7) -/

/-- In this order: ldImm_A2, addImm_A3, ldReg_A6, or_A7, and_A8, xor_A9, addReg_A11, addReg_A_ADD_XF. -/
theorem test_registers_1 :
    (next (step (start 0x6FFF)) (fun t => t.readV 15 == 0xFF) = true) ∧
    (next (step (regs [(0, 0xFE), (15, 0x55)] (start 0x7003))) (fun t => t.readV 0 == 1 && t.readV 15 == 0x55) = true) ∧
    (next (step (regs [(2, 0x33)] (start 0x8120))) (fun t => t.readV 1 == 0x33) = true) ∧
    (next (step (regs [(0, 0x0F), (1, 0xF0), (15, 9)] (start 0x8011))) (fun t => t.readV 0 == 0xFF && t.readV 15 == 9) = true) ∧
    (next (step (regs [(0, 0x3C), (1, 0x0F)] (start 0x8012))) (fun t => t.readV 0 == 0x0C) = true) ∧
    (next (step (regs [(0, 0x3C), (1, 0x0F)] (start 0x8013))) (fun t => t.readV 0 == 0x33) = true) ∧
    (next (step (regs [(0, 0x80), (1, 0x80)] (start 0x8014))) (fun t => t.readV 0 == 0 && t.readV 15 == 1) = true) ∧
    next (step (regs [(15, 0xFF), (1, 1)] (start 0x8F14))) (fun t => t.readV 15 == 1) = true ∧
    next (step (under resultLast (regs [(15, 0xFF), (1, 1)] (start 0x8F14)))) (fun t => t.readV 15 == 0) = true := by
  decide +kernel

/-- In this order: subn_A16_A17, subn_A_SUBN_XF, ldI_A22, sub_X2_X3, shr_X4, shr_X10, shl_X7_X8,
extension_absent_is_no_op. -/
theorem test_registers_2 :
    next (step (regs [(0, 7), (1, 7)] (start 0x8017))) (fun t => t.readV 0 == 0 && t.readV 15 == 0) = true ∧
    next (step (regs [(0, 0x0A), (1, 5)] (start 0x8017))) (fun t => t.readV 0 == 0xFB && t.readV 15 == 0) = true ∧
    next (step (regs [(15, 5), (1, 0x0A)] (start 0x8F17))) (fun t => t.readV 15 == 1) = true ∧
    next (step (under resultLast (regs [(15, 5), (1, 0x0A)] (start 0x8F17)))) (fun t => t.readV 15 == 5) = true ∧
    (next (step (start 0xAFFF)) (fun t => t.i == 0xFFF) = true) ∧
    next (step (under extended (regs [(0, 7), (1, 7)] (start 0x8015)))) (fun t => t.readV 0 == 0 && t.readV 15 == 1) = true ∧
    next (step (under extended (regs [(0, 5), (1, 0x0A)] (start 0x8015)))) (fun t => t.readV 0 == 0xFB && t.readV 15 == 0) =
      true ∧
    (next (step (under extended (regs [(0, 5), (1, 0x99)] (start 0x8016)))) (fun t => t.readV 0 == 2 && t.readV 15 == 1) = true) ∧
    next (step (under extended (regs [(15, 2)] (start 0x8F06)))) (fun t => t.readV 15 == 0) = true ∧
    next (step (under extendedResultLast (regs [(15, 2)] (start 0x8F06)))) (fun t => t.readV 15 == 1) = true ∧
    next (step (under extended (regs [(0, 0x81)] (start 0x800E)))) (fun t => t.readV 0 == 2 && t.readV 15 == 1) = true ∧
    next (step (under extended (regs [(0, 0x40)] (start 0x800E)))) (fun t => t.readV 0 == 0x80 && t.readV 15 == 0) = true ∧
    (next (step (regs [(0, 5), (1, 0x0A)] (start 0x8015))) (fun t => t.readV 0 == 5 && t.readV 15 == 0 && t.pc == 0x202) = true) := by
  decide +kernel

/-! ### Events (95_test_vectors.md sections 8 and 9) -/

/-- FRAME_WAIT with the blank frame pending. -/
def waiting : State := { State.reset with run := .frameWait, pendingFrame := some Display.blank }

/-- HALTED after the fetch fault at 0xFFF. -/
def stopped : State :=
  { State.reset with pc := 0xFFF, run := .halted, faultCause := .oobFetch, faultPc := 0xFFF, faultAddr := 0x1000 }

/-- In this order: tick_clamp, tick_wrap, M1, M2, M3. -/
theorem test_events_1 :
    (next (step { State.reset with inputs := [.tick] }) (fun t => t.dt == 0 && t.st == 0 && t.pc == 0x200) = true) ∧
    (next (step (under wrapping { stopped with inputs := [.tick] })) (fun t => t.dt == 0xFF && t.st == 0xFF && t.run == .halted) =
      true) ∧
    (next waiting.stepRequest (fun t => t.run == .frameWait && t.pendingFrame.isSome && t.pc == 0x200) = true) ∧
    (next (step { waiting with inputs := [.acceptFrame] }) (fun t =>
      t.run == .running && t.pendingFrame.isNone && t.delivered.length == 1 && t.pc == 0x200) = true) ∧
    (match step { State.reset with inputs := [.acceptFrame] } with
      | .fault f => f == .acceptNotEnabled
      | .next _ => false
      | .refused _ => false) = true := by
  decide +kernel

/-- In this order: M4, M6, M7, construct, reset_font. -/
theorem test_events_2 :
    (next (step stopped) (fun t => t.hostStatus == ⟨.halted, .oobFetch, 0xFFF, 0x1000, 0, 0, 0⟩ && t.pc == 0xFFF) = true) ∧
    (next (step { stopped with inputs := [.reset [0x12, 0x00]] }) (fun t =>
      t.hostStatus == ⟨.running, .none, 0, 0, 0, 0, 0⟩ && t.pc == 0x200 && t.byteAt 0x200 == 0x12 && t.byteAt 0x201 == 0) = true) ∧
    (match ({ State.reset with inputs := [] } : State).onEvent (.reset (List.replicate 3585 0)) with
      | .refused r => r == .imageTooLong
      | .next _ => false
      | .fault _ => false) = true ∧
    ((construct Params.default [0x12, 0x00, 0x34]).map (fun t => t.mem) = some [(0x200, 0x12), (0x202, 0x34)]) ∧
    (List.range 5).map (fun k => State.reset.byteAt (0x050 + k)) = [0xF0, 0x90, 0x90, 0x90, 0xF0] ∧
    (List.range 5).map (fun k => State.reset.byteAt (0x09B + k)) = [0xF0, 0x80, 0xF0, 0x80, 0x80] ∧
    State.reset.byteAt 0x04F = 0 ∧ State.reset.byteAt 0x0A0 = 0 := by
  decide +kernel

/-! ### Witnesses: for each statement with hypotheses, a state and operands that meet them -/

theorem witness_DecodeEncodeRoundTrip :
    Instr.wellFormed Params.default (.drw 0xF 0 0xF) = true ∧ Instr.wellFormed extended (.shl 0xF 0xF) = true := by decide

theorem witness_EncodeDecodeRoundTrip : decodeFor Params.default 0x1FFF = .ok (.jp 0xFFF) := by decide

theorem witness_OpcodePatternsDisjoint :
    (Instr.jp 0).row.holds 0x1FFF = true ∧ (Instr.jp 0xFFF).row.holds 0x1FFF = true := by decide

theorem witness_DecodeFollowsOpcodeTable :
    decode 0x8AB4 = .ok (.addReg 10 11) ∧ (Instr.addReg 0 0).row.holds 0x8AB4 = true := by decide

/-- A word of each clause, and for the extension's words both values of the parameter. -/
theorem witness_UnrecognisedWordsAreTheListed :
    [0x00E1, 0x5AB1, 0x8ABF, 0x8AB5, 0x9AB1, 0xBFFF, 0xF065].all (fun w => (decodeFor Params.default w).isOk == false) = true ∧
    (decodeFor extended 0x8AB5).isOk = true := by decide

theorem witness_FetchIsBigEndian :
    State.reset.pc.toNat + 1 < 4096 ∧ ({ State.reset with pc := 0xFFE } : State).pc.toNat + 1 < 4096 := by decide

/-- The boundary addresses of each clause. -/
theorem witness_MemReadChecksBounds :
    (State.reset.memRead1 0xFFF).isOk = true ∧ (State.reset.memRead1 0x1000).isOk = false ∧
    (State.reset.memRead2 0xFFE).isOk = true ∧ (State.reset.memRead2 0xFFF).isOk = false ∧
    (State.reset.memRead2 0x1000).isOk = false := by decide

theorem witness_CanonicalMemoryIsUnique :
    Memory.wf defaultFont (start 0x1234).mem = true ∧
    ∀ a, Memory.read defaultFont (start 0x1234).mem a = Memory.read defaultFont [(0x200, 0x12), (0x201, 0x34)] a :=
  ⟨by decide, fun _ => rfl⟩

theorem witness_OnlyConstructionWritesMemory :
    next (exec (.call 0x300) State.reset) (fun t => t.pc == 0x300) = true ∧
    next (State.reset.onEvent .tick) (fun t => t.dt == 0) = true ∧
    ∀ image, HostEvent.tick ≠ .reset image := ⟨by decide +kernel, by decide +kernel, fun _ h => by cases h⟩

/-- With no event listed, and with the request listed. -/
theorem witness_StepRunsDecodedInstruction :
    RequestNext (start 0xDAB5) ∧ (start 0xDAB5).pc.toNat + 1 < 4096 ∧
    decodeFor (start 0xDAB5).params (start 0xDAB5).nextWord = .ok (.drw 10 11 5) ∧
    RequestNext { start 0xDAB5 with inputs := [.stepRequest, .tick] } :=
  ⟨⟨rfl, .inl ⟨rfl, rfl⟩⟩, by decide, by decide, rfl, .inr rfl⟩

/-- A request listed, another event listed, and none listed. -/
theorem witness_StepHandlesNextEvent :
    RequestNext { State.reset with inputs := [.stepRequest] } ∧ RequestNext State.reset ∧
    ({ State.reset with inputs := [.tick, .stepRequest] } : State).inputs = .tick :: [.stepRequest] :=
  ⟨⟨rfl, .inr rfl⟩, ⟨rfl, .inl ⟨rfl, rfl⟩⟩, rfl⟩

theorem witness_UnrecognisedWordIsNoOpOrFault :
    (start 0xF065).run = .running ∧ (start 0xF065).pc.toNat + 1 < 4096 ∧
    decodeFor Params.default (start 0xF065).nextWord = .error (.unrecognised 0xF065) ∧
    (under strict (start 0xF065)).params.strictDecode = true ∧ (start 0xF065).params.strictDecode = false :=
  ⟨rfl, by decide, by decide, rfl, rfl⟩

theorem witness_FetchOutsideMemoryFaults :
    ({ State.reset with pc := 0xFFF } : State).run = .running ∧
    4096 ≤ ({ State.reset with pc := 0xFFF } : State).pc.toNat + 1 ∧
    4096 ≤ ({ State.reset with pc := 0x1000 } : State).pc.toNat + 1 :=
  ⟨rfl, by decide, by decide⟩

theorem witness_HaltedIsLeftOnlyByReset :
    stopped.run = .halted ∧ next (stopped.onEvent .tick) (fun t => t.run == .halted) = true ∧
    next (stopped.onEvent (.reset [])) (fun t => t.run == .running) = true := by decide +kernel

/-- The agents after the last listed event: a driver that has stopped, and a sink that never accepts. -/
def silent (s : State) : State := { s with idle := { driverRequests := false, sinkAccepts := true } }
def refusing (s : State) : State := { s with idle := { driverRequests := true, sinkAccepts := false } }

theorem witness_FrameWaitHoldsStepRequest :
    waiting.run = .frameWait ∧ waiting.pendingFrame = some Display.blank ∧ waiting.inputs = [] ∧
    waiting.idle.sinkAccepts = true ∧ (refusing waiting).inputs = [] ∧ (refusing waiting).idle.sinkAccepts = false :=
  ⟨rfl, rfl, rfl, rfl, rfl, rfl⟩

theorem witness_AcceptFrameDeliversPendingFrame :
    (waiting.run = .frameWait ∧ waiting.pendingFrame = some Display.blank ∧ waiting.requestHeld = false) ∧
    State.reset.run ≠ .frameWait ∧ stopped.run ≠ .frameWait := ⟨⟨rfl, rfl, rfl⟩, by decide, by decide⟩

theorem waiting_inv : Inv waiting where
  memory := rfl
  index := show (0x000#16).toNat < 4096 by decide
  pc := show (0x200#16).toNat ≤ 0x1002 by decide
  returns := fun _ h => by cases h
  depth := fun _ h => by cases h
  frame := ⟨fun _ => rfl, fun _ => rfl⟩
  frameIsDisplay := fun _ h => (Option.some.inj h).symm
  halted := ⟨fun h => (by cases h), fun h => absurd rfl h⟩
  status := fun _ => ⟨rfl, rfl, rfl⟩
  overflow := fun h => by cases h
  unknown := fun h => by cases h
  held := fun h => by cases h
  timers := fun _ => ⟨rfl, rfl⟩

theorem stopped_inv : Inv stopped where
  memory := rfl
  index := show (0x000#16).toNat < 4096 by decide
  pc := show (0xFFF#16).toNat ≤ 0x1002 by decide
  returns := fun _ h => by cases h
  depth := fun _ h => by cases h
  frame := ⟨fun h => (by cases h), fun h => by cases h⟩
  frameIsDisplay := fun _ h => by cases h
  halted := ⟨fun _ h => (by cases h), fun _ => rfl⟩
  status := fun h => by cases h
  overflow := fun h => by cases h
  unknown := fun h => by cases h
  held := fun h => by cases h
  timers := fun _ => ⟨rfl, rfl⟩

/-- A frame pending that stays pending, one that is delivered, one that a reset drops, and none pending. -/
theorem witness_FrameIsDeliveredExactlyOnce :
    Inv { waiting with inputs := [.tick] } ∧ Inv { waiting with inputs := [.reset []] } ∧ Inv stopped ∧
    next (step { waiting with inputs := [.tick] }) (fun t => t.pendingFrame.isSome && t.delivered.length == 0) = true ∧
    next (step waiting) (fun t => t.pendingFrame.isNone && t.delivered.length == 1) = true ∧
    next (step { waiting with inputs := [.reset []] }) (fun t => t.pendingFrame.isNone && t.delivered.length == 0) = true ∧
    next (step stopped) (fun t => t.pendingFrame.isNone) = true :=
  ⟨{ waiting_inv with }, { waiting_inv with }, stopped_inv, by decide +kernel, by decide +kernel, by decide +kernel,
    by decide +kernel⟩

theorem witness_TickDecrementsBothTimers :
    State.reset.params.timerUnderflow = .clamp ∧ (under wrapping State.reset).params.timerUnderflow = .wrap := ⟨rfl, rfl⟩

theorem witness_TimersAreInvisibleToSteps :
    next (start 0xD011).stepRequest (fun t => t.run == .frameWait) = true := by decide +kernel

/-- A step of each of the four faults. -/
def faulting : List State :=
  [{ State.reset with pc := 0xFFF }, under strict (start 0xF065), { start 0xD012 with i := 0xFFF },
    under depth2 { start 0x2500 with stack := [0x206, 0x206] }]

theorem witness_FaultsArePrecise :
    faulting.all (fun s => s.run == .running && next s.stepRequest (fun t => t.run == .halted)) = true := by decide +kernel

theorem witness_StepFaultsForTheNamedCauses :
    faulting.all (fun s => next s.stepRequest (fun t => t.faultCause != .none)) = true ∧
    faulting.map (fun s => match s.stepRequest with
      | .next t => t.faultCause.code
      | .fault _ => 0
      | .refused _ => 0) = [1, 4, 2, 3] := by decide +kernel

theorem witness_StepRequestAlwaysAnswers :
    stopped.run = .halted ∧ waiting.run = .frameWait ∧ State.reset.run = .running ∧
    next (start 0xD011).stepRequest (fun t => t.run == .frameWait) = true := ⟨rfl, rfl, rfl, by decide +kernel⟩

/-- Each way a run ends, with events still to come and with none, and what two steps leave of it (60_exceptions.md R135). -/
theorem witness_RunEndsInTheThreeNamedWays :
    (stopped.run = .halted ∧ OnlyRequestsAndTicks { stopped with inputs := [.stepRequest, .tick] }) ∧
    ((silent State.reset).run = .running ∧ OnlyTicks { silent State.reset with inputs := [.tick] }) ∧
    ((refusing waiting).run = .frameWait ∧ (refusing waiting).idle.sinkAccepts = false ∧
      OnlyRequestsAndTicks { refusing waiting with inputs := [.stepRequest, .tick] } ∧ OnlyRequestsAndTicks waiting) := by
  refine ⟨⟨rfl, ?_⟩, ⟨rfl, rfl, ?_⟩, rfl, rfl, ?_, ?_⟩ <;> simp [OnlyRequestsAndTicks, waiting, State.reset, State.resetWith]

theorem test_run_ends :
    (next (step (silent State.reset)) (fun t => t.pc == 0x200 && t.run == .running) = true) ∧
    (next (step (refusing waiting)) (fun t => t.run == .frameWait && t.pendingFrame.isSome && t.requestHeld &&
      next (step t) (fun u => u.run == .frameWait && u.pendingFrame.isSome && u.pc == 0x200)) = true) ∧
    (next (step (silent waiting)) (fun t => t.run == .running && t.pc == 0x200 && t.delivered.length == 1) = true) := by
  decide +kernel

theorem witness_RunGoesOnWhileHostDoesItsDuty :
    Inv waiting ∧ waiting.inputs = [] ∧ waiting.idle.driverRequests = true ∧ waiting.idle.sinkAccepts = true ∧
    Inv { waiting with run := .running, pendingFrame := none } :=
  ⟨waiting_inv, rfl, rfl, rfl,
    { waiting_inv with
      frame := ⟨fun h => (by cases h), fun h => (by cases h)⟩
      frameIsDisplay := fun _ h => (by cases h)
      halted := ⟨fun h => (by cases h), fun h => absurd rfl h⟩
      held := fun h => (by cases h) }⟩

/-- C-2 of 95_test_vectors.md. -/
theorem witness_SelfJumpChangesNothing :
    (start 0x1200).run = .running ∧ (start 0x1200).pc.toNat + 1 < 4096 ∧ (start 0x1200).nextWord = encNNN 0x1000 0x200 ∧
    (0x200#12).toNat = (start 0x1200).pc.toNat ∧ (start 0x1200).inputs = [] := by
  decide +kernel

/-- Each part is changed by some instruction. -/
theorem witness_OnlyNamedInstructionsChangeEachPart :
    next (exec .cls (lit 0 0 State.reset)) (fun t => !t.display.pix 0 0) = true ∧
    next (exec (.ldI 1) State.reset) (fun t => t.i != 0) = true ∧
    next (exec (.call 1) State.reset) (fun t => t.stack != []) = true ∧
    next (exec .ret State.reset) (fun t => t.warnings != []) = true ∧
    next (exec (.call 1) (under { Params.default with stackDepth := some 0 } State.reset)) (fun t => t.run == .halted) = true ∧
    next (exec (.drw 0 0 0) State.reset) (fun t => t.run == .frameWait && t.pendingFrame.isSome) = true := by decide +kernel

/-- Each named instruction changes `VF` in some state. -/
theorem witness_FlagRegisterChangesOnlyAsNamed :
    [Instr.addReg 0 0, .subn 1 0, .drw 0 0 0, .sub 1 0, .shr 1 0, .shl 1 0, .ldImm 15 3, .addImm 15 3, .ldReg 15 0, .or 15 0,
      .and 15 0, .xor 15 0].all (fun i =>
        next (exec i (regs [(0, 1), (1, 7), (15, 2)] State.reset)) (fun t => t.readV 15 != 2)) = true := by decide +kernel

theorem witness_OnlyDrawReadsMemoryIndexDisplay :
    Instr.addReg 0 1 ≠ .cls ∧ (∀ nnn, Instr.addReg 0 1 ≠ .ldI nnn) ∧ (∀ x y n, Instr.addReg 0 1 ≠ .drw x y n) ∧
    next (exec (.addReg 0 1) State.reset) (fun t => t.pc == 0x200) = true :=
  ⟨by decide, fun _ h => (by cases h), fun _ _ _ h => (by cases h), by decide +kernel⟩

/-- The last byte of memory as the one row, and two rows of which the second is cut off at the bottom edge. -/
theorem witness_DrawXorsSpriteAndReportsCollision :
    SpriteReadable { State.reset with i := 0xFFF } 1 1 ∧
    SpriteReadable (regs [(1, 0x1F)] { State.reset with i := 0xFFF }) 1 2 := by
  unfold SpriteReadable
  decide +kernel

/-- The first row outside, and the second. -/
theorem witness_DrawOutsideMemoryFaults :
    (0 < min (1#4).toNat (32 - (State.reset.readV 1).toNat % 32) ∧
      4096 ≤ ({ State.reset with i := 0x1000 } : State).i.toNat + 0) ∧
    (1 < min (2#4).toNat (32 - (State.reset.readV 1).toNat % 32) ∧
      4096 ≤ ({ State.reset with i := 0xFFF } : State).i.toNat + 1 ∧
      ∀ q, q < 1 → ({ State.reset with i := 0xFFF } : State).i.toNat + q < 4096) := by
  decide +kernel

/-- On a blank display, and on one where the sprite's bit meets an on pixel first: there the second draw leaves `VF` 0. -/
theorem witness_DrawTwiceRestoresDisplay :
    SpriteReadable (sprite [0x80] 0xD011) 1 1 ∧
    next (exec (.drw 0 1 1) (sprite [0x80] 0xD011)) (fun t => t.readV 0 == 0 && t.readV 1 == 0 &&
      next (exec (.drw 0 1 1) { t with run := .running, pendingFrame := none }) (fun u => u.readV 15 == 1)) = true ∧
    next (exec (.drw 0 1 1) (lit 0 0 (sprite [0x80] 0xD011))) (fun t => t.readV 15 == 1 &&
      next (exec (.drw 0 1 1) { t with run := .running, pendingFrame := none }) (fun u => u.readV 15 == 0)) = true := by
  unfold SpriteReadable
  decide +kernel

theorem witness_ReturnPopsOrRecovers :
    ({ State.reset with stack := [0x206] } : State).stack = 0x206 :: [] ∧ State.reset.stack = [] := ⟨rfl, rfl⟩

theorem witness_CallPushesReturnAddressOrOverflows :
    State.reset.params.stackDepth ≠ some State.reset.stack.length ∧
    (under depth2 { State.reset with stack := [0x206] }).params.stackDepth ≠ some 1 ∧
    (under depth2 { State.reset with stack := [0x206, 0x206] }).params.stackDepth = some 2 := by decide

/-- The call of S8-CALLRET. -/
theorem witness_CallThenReturnComesBack :
    let s := putWord 0x300 0x00EE (start 0x2300)
    s.run = .running ∧ s.pc.toNat + 1 < 4096 ∧ s.nextWord = encNNN 0x2000 0x300 ∧
    s.params.stackDepth ≠ some s.stack.length ∧ (0x300#12).toNat + 1 < 4096 ∧
    composeWord (s.byteAt 0x300) (s.byteAt 0x301) = 0x00EE := by decide +kernel

/-- The destination is, and is not, the flag register, under both orders. -/
theorem witness_ResultAndFlag :
    (0 : Nibble) ≠ vf ∧ State.reset.params.flagLast = true ∧ (under resultLast State.reset).params.flagLast = false := by decide

theorem witness_SubtractExtensionSetsNoBorrowFlag : extended.arith8Ext = true ∧ Params.default.arith8Ext = false := ⟨rfl, rfl⟩

theorem witness_ConstructionGivesTheResetState :
    ([] : List Byte).length ≤ 3584 ∧ (List.replicate 3584 (1#8)).length ≤ 3584 ∧ 0 < [(0x12 : Byte)].length := by
  refine ⟨by decide, ?_, by decide⟩
  rw [List.length_replicate]

theorem witness_OversizeImageIsRejectedOrCut :
    3584 < (List.replicate 3585 (1#8)).length ∧ Params.default.loadOversize = .reject ∧ truncating.loadOversize = .truncate := by
  refine ⟨?_, rfl, rfl⟩
  rw [List.length_replicate]
  decide

theorem witness_ResetForgetsTheStateBefore :
    [(0x12 : Byte)].length ≤ 3584 ∧ (construct waiting.params [0x12]).isSome = true ∧
    next (waiting.onEvent (.reset [0x12])) (fun t => t.byteAt 0x200 == 0x12 && t.run == .running) = true := by decide +kernel

theorem witness_PlacedWordRunsFirst : decode 0x8ABE = .ok (.shl 10 11) := by decide

theorem witness_ConstructedCoreMeetsInvariant : (construct Params.default [0x12]).isSome = true := by decide +kernel

/-- A step that ends in FRAME_WAIT, one that leaves it, and one that stays in HALTED. -/
theorem witness_StepKeepsInvariant :
    Inv waiting ∧ next (step waiting) (fun t => t.run == .running) = true ∧
    Inv stopped ∧ next (step stopped) (fun t => t.run == .halted) = true :=
  ⟨waiting_inv, by decide +kernel, stopped_inv, by decide +kernel⟩

theorem witness_StepKeepsParameters : next (step (under strict State.reset)) (fun t => t.params.strictDecode) = true := by
  decide +kernel

end Sys2Proof.Tests
end

section
/-!
PROOFS. The memory family (20_memory.md): what the fetch reads.
-/
namespace Sys2Proof.Machine

/-! ### The halves of a composed word -/

/-- The high half, bits 15:8, is the first byte (20_memory.md R38). -/
@[simp] theorem composeWord_extractHigh (hi lo : Byte) : (composeWord hi lo).extractLsb' 8 8 = hi := by
  apply BitVec.eq_of_toNat_eq
  rw [BitVec.extractLsb'_toNat, composeWord_toNat, Nat.shiftRight_eq_div_pow]
  omega

/-- The low half, bits 7:0, is the second byte (20_memory.md R38). -/
@[simp] theorem composeWord_extractLow (hi lo : Byte) : (composeWord hi lo).extractLsb' 0 8 = lo := by
  apply BitVec.eq_of_toNat_eq
  rw [BitVec.extractLsb'_toNat, composeWord_toNat, Nat.shiftRight_zero]
  omega

/-! ### The fetch -/

/-- Settles O7: inside memory the fetch answers the composed word, whose value and halves are known. -/
theorem fetchIsBigEndian : Obligations.FetchIsBigEndian := by
  intro s hpc
  exact ⟨composeWord (s.byteAt s.pc.toNat) (s.byteAt (s.pc.toNat + 1)), s.memRead2_ok hpc,
    composeWord_toNat _ _, composeWord_extractHigh _ _, composeWord_extractLow _ _⟩

end Sys2Proof.Machine
end

section
/-!
PROOFS. The encoding family (30_encoding.md): the step on a word that is no instruction.
-/
namespace Sys2Proof.Machine

/-- A step request in RUN on an unrecognised word inside memory (30_encoding.md R63). -/
theorem State.stepRequest_unrecognised {s : State} {e : DecodeError} (hrun : s.run = .running)
    (hpc : s.pc.toNat + 1 < 4096) (hdec : decodeFor s.params s.nextWord = .error e) :
    s.stepRequest =
      if s.params.strictDecode then .next (s.raise .unknownOpcode s.pc 0 s.nextWord) else .next s.advancePc := by
  rw [State.stepRequest_running hrun, State.runInstr_fetched hpc, State.runWord_unrecognised hdec]

/-- Settles O12: the step on an unrecognised word, at each value of `P_STRICT_DECODE`. -/
theorem unrecognisedWordIsNoOpOrFault : Obligations.UnrecognisedWordIsNoOpOrFault := by
  refine ⟨rfl, fun s e hrun hpc hdec => ⟨fun hlax => ?_, fun hstrict => ?_⟩⟩
  · rw [State.stepRequest_unrecognised hrun hpc hdec, hlax]
    rfl
  · rw [State.stepRequest_unrecognised hrun hpc hdec, hstrict]
    rfl

end Sys2Proof.Machine
end

section
/-!
PROOFS. The display family (41_display.md): 00E0, the completed DXYN and the DXYN that faults.
-/
namespace Sys2Proof.Machine

/-! ### The meanings of the two instructions -/

/-- 00E0 blanks the display (41_display.md R77). -/
theorem exec_cls (s : State) : exec .cls s = .next { s with display := Display.blank } := rfl

/-- The dispatch of DXYN (40_step_cycle.md R70). -/
theorem exec_drw (x y n : Nibble) (s : State) : exec (.drw x y n) s = execDrw x y n s := rfl

/-! ### What a draw hands over, and what a fault records -/

/-- The frame of a change of the display alone. -/
theorem sameExcept_display (s : State) (d : Display) : SameExcept [] [.display] s { s with display := d } := by
  constructor
  case display => exact fun hnot => absurd (List.mem_singleton_self _) hnot
  all_goals intros; rfl

/-- The flag of a decided proposition (44_register_ops.md R104). -/
theorem flagByte_decide (p : Prop) [Decidable p] : flagByte (decide p) = if p then 1 else 0 := by
  simp only [flagByte, decide_eq_true_eq]

/-- A completed draw leaves the core waiting for its frame (41_display.md R81). -/
@[simp] theorem State.drawSprite_run (s : State) (x y : Nibble) (bytes : List Byte) :
    (s.drawSprite x y bytes).run = .frameWait := rfl

/-- The frame of a draw is a copy of the display after it (41_display.md R81). -/
@[simp] theorem State.drawSprite_pendingFrame (s : State) (x y : Nibble) (bytes : List Byte) :
    (s.drawSprite x y bytes).pendingFrame = some (s.drawSprite x y bytes).display := rfl

/-- The fault entry of an executing instruction, field by field: `pc` is its address again (60_exceptions.md R114, R115). -/
theorem State.raiseInInstr_eq (s : State) (c : FaultCause) (d w : Word) :
    s.raiseInInstr c d w = { s with
      pc := s.pc - 2, run := .halted, faultCause := c, faultPc := s.pc - 2, faultAddr := d, faultWord := w } := rfl

/-- A row's address fits in 16 bits when every row before it lies inside memory: it is the base itself or at most 4096
(60_exceptions.md R116; log 14). -/
theorem toNat_rowAddr_of_before_inside (i : Word) (r : Nat) (hq : ∀ q, q < r → i.toNat + q < 4096) :
    (BitVec.ofNat 16 (i.toNat + r)).toNat = i.toNat + r := by
  rw [BitVec.toNat_ofNat]
  apply Nat.mod_eq_of_lt
  cases r with
  | zero => exact i.isLt
  | succ q =>
    have hlast : i.toNat + q < 4096 := hq q q.lt_succ_self
    omega

/-! ### The statements -/

/-- Settles O27: with every drawn row inside memory the draw completes, in the closed form of the draw loop. -/
theorem drawXorsSpriteAndReportsCollision : Obligations.DrawXorsSpriteAndReportsCollision := by
  intro s x y n hread
  refine ⟨s.drawSprite x y (s.spriteBytes y n), ?_, s.drawSprite_pix x y n, ?_, s.drawSprite_run x y _,
    s.drawSprite_pendingFrame x y _, s.drawSprite_same x y _⟩
  · rw [exec_drw, execDrw_completes x y n s hread]
  · rw [State.drawSprite_vf, flagByte_decide]

/-- Settles O29: the fault is entered at the first address outside memory, which 16 bits hold. -/
theorem drawOutsideMemoryFaults : Obligations.DrawOutsideMemoryFaults := by
  intro s x y n r hr hbad hfirst
  refine ⟨s.raiseInInstr .oobSpriteRead (BitVec.ofNat 16 (s.i.toNat + r)) (encode (.drw x y n)), ?_, ?_, ?_⟩
  · rw [exec_drw, execDrw_faults x y n s r hr hfirst hbad]
  · rw [State.raiseInInstr_eq]
    exact toNat_rowAddr_of_before_inside s.i r hfirst
  · exact s.raiseInInstr_eq _ _ _

/-- Settles O26: the word is CLS under all parameters, and CLS blanks the display. -/
theorem clearTurnsEveryPixelOff : Obligations.ClearTurnsEveryPixelOff :=
  ⟨fun _ => rfl, fun s => ⟨_, exec_cls s, Display.pix_blank, sameExcept_display s _⟩⟩

end Sys2Proof.Machine
end

section
/-!
PROOFS. The control-flow family (42_control_flow.md): 00EE, 1NNN and 2NNN.
-/
namespace Sys2Proof

/-! ### The words of the two jumps -/

/-- An instruction that the parameters allow is decoded as such (30_encoding.md R61). -/
theorem decodeFor_of_decode {p : Params} {w : Word} {i : Instr} (hdec : decode w = .ok i) (hwf : i.wellFormed p = true) :
    decodeFor p w = .ok i := by
  simp only [decodeFor, hdec, hwf, if_true]

/-- Family 1 is the jump (30_encoding.md R58). -/
theorem decode_of_fieldOp_one {w : Word} (hop : fieldOp w = 1) : decode w = .ok (.jp (fieldNNN w)) := by
  rw [decode, hop]
  rfl

/-- Family 2 is the call (30_encoding.md R58). -/
theorem decode_of_fieldOp_two {w : Word} (hop : fieldOp w = 2) : decode w = .ok (.call (fieldNNN w)) := by
  rw [decode, hop]
  rfl

/-- The word of a jump is the jump to its NNN under all parameters (42_control_flow.md R89). -/
theorem decodeFor_jp (p : Params) (nnn : Addr12) : decodeFor p (encNNN 0x1000 nnn) = .ok (.jp nnn) := by
  have hdec : decode (encNNN 0x1000 nnn) = .ok (.jp nnn) := by
    rw [decode_of_fieldOp_one (fieldOp_encNNN nnn), fieldNNN_encNNN rfl]
  exact decodeFor_of_decode hdec rfl

/-- The word of a call is the call of its NNN under all parameters (42_control_flow.md R90). -/
theorem decodeFor_call (p : Params) (nnn : Addr12) : decodeFor p (encNNN 0x2000 nnn) = .ok (.call nnn) := by
  have hdec : decode (encNNN 0x2000 nnn) = .ok (.call nnn) := by
    rw [decode_of_fieldOp_two (fieldOp_encNNN nnn), fieldNNN_encNNN rfl]
  exact decodeFor_of_decode hdec rfl

end Sys2Proof

namespace Sys2Proof.Machine

/-! ### The meanings of the three instructions, a case each -/

/-- 00EE with a non-empty stack (42_control_flow.md R87). -/
theorem exec_ret_of_cons {s : State} {top : Word} {rest : List Word} (hstack : s.stack = top :: rest) :
    exec .ret s = .next (({ s with stack := rest }).writePc top) := by
  change execRet s = _
  simp only [execRet, hstack]

/-- 00EE with an empty stack (42_control_flow.md R88). -/
theorem exec_ret_of_nil {s : State} (hstack : s.stack = []) :
    exec .ret s = .next ((s.warn .stackUnderflow s.instrAddr).writePc 0) := by
  change execRet s = _
  simp only [execRet, hstack]

/-- 1NNN (42_control_flow.md R89). -/
theorem exec_jp (nnn : Addr12) (s : State) : exec (.jp nnn) s = .next (s.writePc (zextAddr nnn)) := rfl

/-- 2NNN with room on the stack (42_control_flow.md R90). -/
theorem exec_call_of_room {s : State} (nnn : Addr12) (hroom : s.params.stackDepth ≠ some s.stack.length) :
    exec (.call nnn) s = .next ((s.push s.pc).writePc (zextAddr nnn)) :=
  if_neg fun hfull => hroom (s.stackFull_iff.mp hfull)

/-- 2NNN with a full bounded stack (60_exceptions.md R119). -/
theorem exec_call_of_full {s : State} (nnn : Addr12) (hfull : s.params.stackDepth = some s.stack.length) :
    exec (.call nnn) s = .next (s.raiseInInstr .stackOverflow 0 (encNNN 0x2000 nnn)) :=
  if_pos (s.stackFull_iff.mpr hfull)

/-! ### Frames -/

/-- The frame of a change of the stack alone. -/
theorem sameExcept_stack (s : State) (stack : List Word) : SameExcept [] [.stack] s { s with stack := stack } := by
  constructor
  case stack => exact fun hnot => absurd (List.mem_singleton_self _) hnot
  all_goals intros; rfl

/-- The frame of a warning (60_exceptions.md R124). -/
theorem sameExcept_warn (s : State) (k : WarningKind) (a : Word) : SameExcept [] [.warnings] s (s.warn k a) := by
  constructor
  case warnings => exact fun hnot => absurd (List.mem_singleton_self _) hnot
  all_goals intros; rfl

/-- Writing `pc` last adds `pc` to the parts of a frame. -/
theorem SameExcept.writePc {s t : State} {regs : List Nibble} {parts : List Part} (h : SameExcept regs parts s t)
    (w : Word) : SameExcept regs (.pc :: parts) s (t.writePc w) :=
  have hbefore : SameExcept regs (.pc :: parts) s t := h.mono (fun _ => id) fun _ => List.mem_cons_of_mem _
  have hwrite : SameExcept regs (.pc :: parts) t (t.writePc w) := (sameExcept_writePc t w).mono (by simp) (by simp)
  hbefore.trans_regs hwrite (fun _ => id) (fun _ => id)

/-! ### The statements -/

/-- Settles O33: the full-stack test separates the completed call from the fault entry. -/
theorem callPushesReturnAddressOrOverflows : Obligations.CallPushesReturnAddressOrOverflows := by
  refine fun nnn => ⟨fun p => decodeFor_call p nnn, fun s => ⟨fun hroom => ?_, fun hfull => ?_⟩⟩
  · exact ⟨_, exec_call_of_room nnn hroom, rfl, zextAddr_toNat nnn, (sameExcept_stack s (s.pc :: s.stack)).writePc _⟩
  · rw [exec_call_of_full nnn hfull, State.raiseInInstr_eq]

/-- Settles O31: by the two cases of the stack; an empty one costs a warning and leaves the stack in the frame. -/
theorem returnPopsOrRecovers : Obligations.ReturnPopsOrRecovers := by
  refine ⟨fun _ => rfl, fun s => ⟨fun top rest hcons => ?_, fun hnil => ?_⟩⟩
  · exact ⟨_, exec_ret_of_cons hcons, rfl, rfl, (sameExcept_stack s rest).writePc top⟩
  · exact ⟨_, exec_ret_of_nil hnil, rfl, rfl, (sameExcept_warn s .stackUnderflow s.instrAddr).writePc 0⟩

/-- Settles O32: the word is the jump under all parameters, and the jump writes `pc` alone. -/
theorem jumpSetsPc : Obligations.JumpSetsPc :=
  fun nnn => ⟨fun p => decodeFor_jp p nnn, fun s => ⟨_, exec_jp nnn s, zextAddr_toNat nnn, sameExcept_writePc s _⟩⟩

end Sys2Proof.Machine
end

section
/-!
PROOFS. The skip family (43_skip.md): 3XNN, 4XNN, 5XY0 and 9XY0.
-/
namespace Sys2Proof

/-! ### The words of the four skips -/

/-- Family 3 is the skip if a register equals an immediate (30_encoding.md R58). -/
theorem decode_of_fieldOp_three {w : Word} (hop : fieldOp w = 3) :
    decode w = .ok (.seImm (fieldX w) (fieldNN w)) := by
  rw [decode, hop]
  rfl

/-- Family 4 is the skip if a register differs from an immediate (30_encoding.md R58). -/
theorem decode_of_fieldOp_four {w : Word} (hop : fieldOp w = 4) :
    decode w = .ok (.sneImm (fieldX w) (fieldNN w)) := by
  rw [decode, hop]
  rfl

/-- Where N is 0, the check of families 5 and 9 passes (30_encoding.md R60). -/
theorem decodeN0_of_fieldN_zero {w : Word} (i : Instr) (hn : fieldN w = 0) : decodeN0 w i = .ok i :=
  if_pos hn

/-- Family 5 with N = 0 is the skip if two registers are equal (30_encoding.md R58, R60). -/
theorem decode_of_fieldOp_five {w : Word} (hop : fieldOp w = 5) (hn : fieldN w = 0) :
    decode w = .ok (.seReg (fieldX w) (fieldY w)) := by
  rw [decode, hop]
  exact decodeN0_of_fieldN_zero _ hn

/-- Family 9 with N = 0 is the skip if two registers differ (30_encoding.md R58, R60). -/
theorem decode_of_fieldOp_nine {w : Word} (hop : fieldOp w = 9) (hn : fieldN w = 0) :
    decode w = .ok (.sneReg (fieldX w) (fieldY w)) := by
  rw [decode, hop]
  exact decodeN0_of_fieldN_zero _ hn

/-- The word 3XNN under all parameters (43_skip.md R94). -/
theorem decodeFor_seImm (p : Params) (x : Nibble) (nn : Byte) :
    decodeFor p (encXNN 0x3000 x nn) = .ok (.seImm x nn) := by
  have hdec : decode (encXNN 0x3000 x nn) = .ok (.seImm x nn) := by
    rw [decode_of_fieldOp_three (fieldOp_encXNN x nn), fieldX_encXNN rfl, fieldNN_encXNN rfl]
  exact decodeFor_of_decode hdec rfl

/-- The word 4XNN under all parameters (43_skip.md R95). -/
theorem decodeFor_sneImm (p : Params) (x : Nibble) (nn : Byte) :
    decodeFor p (encXNN 0x4000 x nn) = .ok (.sneImm x nn) := by
  have hdec : decode (encXNN 0x4000 x nn) = .ok (.sneImm x nn) := by
    rw [decode_of_fieldOp_four (fieldOp_encXNN x nn), fieldX_encXNN rfl, fieldNN_encXNN rfl]
  exact decodeFor_of_decode hdec rfl

/-- The word 5XY0 under all parameters (43_skip.md R96). -/
theorem decodeFor_seReg (p : Params) (x y : Nibble) :
    decodeFor p (encXYN 0x5000 x y 0) = .ok (.seReg x y) := by
  have hdec : decode (encXYN 0x5000 x y 0) = .ok (.seReg x y) := by
    rw [decode_of_fieldOp_five (fieldOp_encXYN x y 0) (fieldN_encXYN rfl x y 0), fieldX_encXYN rfl, fieldY_encXYN rfl]
  exact decodeFor_of_decode hdec rfl

/-- The word 9XY0 under all parameters (43_skip.md R97). -/
theorem decodeFor_sneReg (p : Params) (x y : Nibble) :
    decodeFor p (encXYN 0x9000 x y 0) = .ok (.sneReg x y) := by
  have hdec : decode (encXYN 0x9000 x y 0) = .ok (.sneReg x y) := by
    rw [decode_of_fieldOp_nine (fieldOp_encXYN x y 0) (fieldN_encXYN rfl x y 0), fieldX_encXYN rfl, fieldY_encXYN rfl]
  exact decodeFor_of_decode hdec rfl

end Sys2Proof

namespace Sys2Proof.Machine

/-! ### The meanings of the four instructions -/

/-- 3XNN (43_skip.md R94). -/
theorem exec_seImm (x : Nibble) (nn : Byte) (s : State) :
    exec (.seImm x nn) s = .next (s.skipIf (s.readV x == nn)) := rfl

/-- 4XNN (43_skip.md R95). -/
theorem exec_sneImm (x : Nibble) (nn : Byte) (s : State) :
    exec (.sneImm x nn) s = .next (s.skipIf (s.readV x != nn)) := rfl

/-- 5XY0 (43_skip.md R96). -/
theorem exec_seReg (x y : Nibble) (s : State) :
    exec (.seReg x y) s = .next (s.skipIf (s.readV x == s.readV y)) := rfl

/-- 9XY0 (43_skip.md R97). -/
theorem exec_sneReg (x y : Nibble) (s : State) :
    exec (.sneReg x y) s = .next (s.skipIf (s.readV x != s.readV y)) := rfl

/-! ### Where a comparison leaves `pc` -/

/-- A skip on equality (43_skip.md R93). -/
theorem State.skipIf_beq_pc (s : State) (a b : Byte) :
    (s.skipIf (a == b)).pc = if a = b then s.pc + 2 else s.pc := by
  rw [State.skipIf_pc]
  simp only [beq_iff_eq]

/-- A skip on difference (43_skip.md R93). -/
theorem State.skipIf_bne_pc (s : State) (a b : Byte) :
    (s.skipIf (a != b)).pc = if a = b then s.pc else s.pc + 2 := by
  rw [State.skipIf_pc]
  simp only [bne_iff_ne, ne_eq, ite_not]

/-! ### The statements -/

/-- Settles O35: both instructions are the conditional skip, whose `pc` and frame are known. -/
theorem immediateSkipsTestRegister : Obligations.ImmediateSkipsTestRegister := by
  refine fun x nn => ⟨fun p => ⟨decodeFor_seImm p x nn, decodeFor_sneImm p x nn⟩, fun s => ⟨?_, ?_⟩⟩
  · exact ⟨_, exec_seImm x nn s, s.skipIf_beq_pc _ _, sameExcept_skipIf s _⟩
  · exact ⟨_, exec_sneImm x nn s, s.skipIf_bne_pc _ _, sameExcept_skipIf s _⟩

/-- Settles O36: both instructions are the conditional skip; `x` and `y` may be the same register. -/
theorem registerSkipsCompareRegisters : Obligations.RegisterSkipsCompareRegisters := by
  refine fun x y => ⟨fun p => ⟨decodeFor_seReg p x y, decodeFor_sneReg p x y⟩, fun s => ⟨?_, ?_⟩⟩
  · exact ⟨_, exec_seReg x y s, s.skipIf_beq_pc _ _, sameExcept_skipIf s _⟩
  · exact ⟨_, exec_sneReg x y s, s.skipIf_bne_pc _ _, sameExcept_skipIf s _⟩

end Sys2Proof.Machine
end

section
/-!
PROOFS. The register family (44_register_ops.md): 6XNN, 7XNN, 8XY0 to 8XY4, 8XY7 and ANNN.
-/
namespace Sys2Proof

/-! ### The words of families 6, 7 and A -/

/-- Family 6 loads an immediate (30_encoding.md R58). -/
theorem decode_of_fieldOp_six {w : Word} (hop : fieldOp w = 6) :
    decode w = .ok (.ldImm (fieldX w) (fieldNN w)) := by
  rw [decode, hop]
  rfl

/-- Family 7 adds an immediate (30_encoding.md R58). -/
theorem decode_of_fieldOp_seven {w : Word} (hop : fieldOp w = 7) :
    decode w = .ok (.addImm (fieldX w) (fieldNN w)) := by
  rw [decode, hop]
  rfl

/-- Family A loads the index register (30_encoding.md R58). -/
theorem decode_of_fieldOp_ten {w : Word} (hop : fieldOp w = 0xA) : decode w = .ok (.ldI (fieldNNN w)) := by
  rw [decode, hop]
  rfl

/-- The word 6XNN under all parameters (44_register_ops.md R98). -/
theorem decodeFor_ldImm (p : Params) (x : Nibble) (nn : Byte) :
    decodeFor p (encXNN 0x6000 x nn) = .ok (.ldImm x nn) := by
  have hdec : decode (encXNN 0x6000 x nn) = .ok (.ldImm x nn) := by
    rw [decode_of_fieldOp_six (fieldOp_encXNN x nn), fieldX_encXNN rfl, fieldNN_encXNN rfl]
  exact decodeFor_of_decode hdec rfl

/-- The word 7XNN under all parameters (44_register_ops.md R99). -/
theorem decodeFor_addImm (p : Params) (x : Nibble) (nn : Byte) :
    decodeFor p (encXNN 0x7000 x nn) = .ok (.addImm x nn) := by
  have hdec : decode (encXNN 0x7000 x nn) = .ok (.addImm x nn) := by
    rw [decode_of_fieldOp_seven (fieldOp_encXNN x nn), fieldX_encXNN rfl, fieldNN_encXNN rfl]
  exact decodeFor_of_decode hdec rfl

/-- The word ANNN under all parameters (44_register_ops.md R107). -/
theorem decodeFor_ldI (p : Params) (nnn : Addr12) : decodeFor p (encNNN 0xA000 nnn) = .ok (.ldI nnn) := by
  have hdec : decode (encNNN 0xA000 nnn) = .ok (.ldI nnn) := by
    rw [decode_of_fieldOp_ten (fieldOp_encNNN nnn), fieldNNN_encNNN rfl]
  exact decodeFor_of_decode hdec rfl

/-! ### The words of family 8 -/

/-- Family 8 is sub-classified by N (30_encoding.md R61). -/
theorem decode_of_fieldOp_eight {w : Word} (hop : fieldOp w = 8) : decode w = decodeFamily8 w := by
  rw [decode, hop]
  rfl

/-- What the row of an N makes of every word, it makes of the word 8XYN, where the parameters allow the instruction. -/
theorem decodeFor_encXYN_eight {p : Params} {n : Nibble} {op : Nibble → Nibble → Instr} (x y : Nibble)
    (hrow : ∀ w, fieldN w = n → decodeFamily8 w = .ok (op (fieldX w) (fieldY w)))
    (hwf : (op x y).wellFormed p = true) : decodeFor p (encXYN 0x8000 x y n) = .ok (op x y) := by
  have hdec : decode (encXYN 0x8000 x y n) = .ok (op x y) := by
    rw [decode_of_fieldOp_eight (fieldOp_encXYN x y n), hrow _ (fieldN_encXYN rfl x y n), fieldX_encXYN rfl,
      fieldY_encXYN rfl]
  exact decodeFor_of_decode hdec hwf

/-- The word 8XY0 under all parameters (44_register_ops.md R100). -/
theorem decodeFor_ldReg (p : Params) (x y : Nibble) : decodeFor p (encXYN 0x8000 x y 0) = .ok (.ldReg x y) :=
  decodeFor_encXYN_eight x y (fun w hn => by rw [decodeFamily8, hn]; rfl) rfl

/-- The word 8XY1 under all parameters (44_register_ops.md R101). -/
theorem decodeFor_or (p : Params) (x y : Nibble) : decodeFor p (encXYN 0x8000 x y 1) = .ok (.or x y) :=
  decodeFor_encXYN_eight x y (fun w hn => by rw [decodeFamily8, hn]; rfl) rfl

/-- The word 8XY2 under all parameters (44_register_ops.md R102). -/
theorem decodeFor_and (p : Params) (x y : Nibble) : decodeFor p (encXYN 0x8000 x y 2) = .ok (.and x y) :=
  decodeFor_encXYN_eight x y (fun w hn => by rw [decodeFamily8, hn]; rfl) rfl

/-- The word 8XY3 under all parameters (44_register_ops.md R103). -/
theorem decodeFor_xor (p : Params) (x y : Nibble) : decodeFor p (encXYN 0x8000 x y 3) = .ok (.xor x y) :=
  decodeFor_encXYN_eight x y (fun w hn => by rw [decodeFamily8, hn]; rfl) rfl

/-- The word 8XY4 under all parameters (44_register_ops.md R104). -/
theorem decodeFor_addReg (p : Params) (x y : Nibble) : decodeFor p (encXYN 0x8000 x y 4) = .ok (.addReg x y) :=
  decodeFor_encXYN_eight x y (fun w hn => by rw [decodeFamily8, hn]; rfl) rfl

/-- The word 8XY7 under all parameters (44_register_ops.md R105). -/
theorem decodeFor_subn (p : Params) (x y : Nibble) : decodeFor p (encXYN 0x8000 x y 7) = .ok (.subn x y) :=
  decodeFor_encXYN_eight x y (fun w hn => by rw [decodeFamily8, hn]; rfl) rfl

end Sys2Proof

namespace Sys2Proof.Machine

/-! ### The meanings of the instructions -/

/-- 6XNN (44_register_ops.md R98). -/
theorem exec_ldImm (x : Nibble) (nn : Byte) (s : State) : exec (.ldImm x nn) s = .next (s.writeV x nn) := rfl

/-- 7XNN (44_register_ops.md R99). -/
theorem exec_addImm (x : Nibble) (nn : Byte) (s : State) :
    exec (.addImm x nn) s = .next (s.writeV x (addWrap (s.readV x) nn)) := rfl

/-- 8XY0 (44_register_ops.md R100). -/
theorem exec_ldReg (x y : Nibble) (s : State) : exec (.ldReg x y) s = .next (s.writeV x (s.readV y)) := rfl

/-- 8XY1 (44_register_ops.md R101). -/
theorem exec_or (x y : Nibble) (s : State) :
    exec (.or x y) s = .next (s.writeV x (s.readV x ||| s.readV y)) := rfl

/-- 8XY2 (44_register_ops.md R102). -/
theorem exec_and (x y : Nibble) (s : State) :
    exec (.and x y) s = .next (s.writeV x (s.readV x &&& s.readV y)) := rfl

/-- 8XY3 (44_register_ops.md R103). -/
theorem exec_xor (x y : Nibble) (s : State) :
    exec (.xor x y) s = .next (s.writeV x (s.readV x ^^^ s.readV y)) := rfl

/-- 8XY4 (44_register_ops.md R104). -/
theorem exec_addReg (x y : Nibble) (s : State) :
    exec (.addReg x y) s =
      .next (s.writeResultAndFlag x (addWrap (s.readV x) (s.readV y)) (carryFlag (s.readV x) (s.readV y))) := rfl

/-- 8XY7 (44_register_ops.md R105). -/
theorem exec_subn (x y : Nibble) (s : State) :
    exec (.subn x y) s =
      .next (s.writeResultAndFlag x (subWrap (s.readV y) (s.readV x)) (noBorrowStrict (s.readV y) (s.readV x))) := rfl

/-- ANNN (44_register_ops.md R107). -/
theorem exec_ldI (nnn : Addr12) (s : State) : exec (.ldI nnn) s = .next (s.writeI (zextAddr nnn)) := rfl

/-! ### Results, flags and the frame of `I` -/

/-- The wrapped sum is the unbounded sum narrowed (44_register_ops.md R104). -/
theorem addWrap_eq_ofNat (a b : Byte) : addWrap a b = BitVec.ofNat 8 (a.toNat + b.toNat) :=
  BitVec.eq_of_toNat_eq (by rw [addWrap_toNat, BitVec.toNat_ofNat])

/-- The carry as a byte (44_register_ops.md R104). -/
theorem flagByte_carryFlag (a b : Byte) : flagByte (carryFlag a b) = if a.toNat + b.toNat > 255 then 1 else 0 :=
  flagByte_decide _

/-- The strict no-borrow flag as a byte (44_register_ops.md R105). -/
theorem flagByte_noBorrowStrict (a b : Byte) : flagByte (noBorrowStrict a b) = if a.toNat > b.toNat then 1 else 0 :=
  flagByte_decide _

/-- The frame of a write to `I`. -/
theorem sameExcept_writeI (s : State) (w : Word) : SameExcept [] [.i] s (s.writeI w) := by
  constructor
  case i => exact fun hnot => absurd (List.mem_singleton_self _) hnot
  all_goals intros; rfl

/-! ### The statements -/

/-- Settles O41: the write of result and flag, with the sum and the carry as the statement writes them. -/
theorem addSetsCarryFlag : Obligations.AddSetsCarryFlag := by
  refine fun x y => ⟨fun p => decodeFor_addReg p x y, fun s =>
    ⟨_, exec_addReg x y s, ?_, sameExcept_writeResultAndFlag s x _ _⟩⟩
  rw [← addWrap_eq_ofNat, ← flagByte_carryFlag]
  exact s.writeResultAndFlag_regs x _ _

/-- Settles O42: the write of result and flag, with the difference and the strict comparison as the statement writes
them. -/
theorem reverseSubtractSetsStrictFlag : Obligations.ReverseSubtractSetsStrictFlag := by
  refine fun x y => ⟨fun p => decodeFor_subn p x y, fun s =>
    ⟨_, exec_subn x y s, ?_, sameExcept_writeResultAndFlag s x _ _⟩⟩
  rw [← subWrap_eq, ← flagByte_noBorrowStrict]
  exact s.writeResultAndFlag_regs x _ _

/-- Settles O37: a register write, which reads back what it wrote. -/
theorem loadImmediateSetsRegister : Obligations.LoadImmediateSetsRegister :=
  fun x nn => ⟨fun p => decodeFor_ldImm p x nn, fun s =>
    ⟨_, exec_ldImm x nn s, s.readV_writeV_same x nn, sameExcept_writeV s x nn⟩⟩

/-- Settles O38: a register write of the wrapped sum, and no write of `VF` beside it. -/
theorem addImmediateWrapsWithoutFlag : Obligations.AddImmediateWrapsWithoutFlag := by
  refine fun x nn => ⟨fun p => decodeFor_addImm p x nn, fun s => ⟨_, exec_addImm x nn s, ?_, sameExcept_writeV s x _⟩⟩
  rw [State.readV_writeV_same, addWrap_toNat]

/-- Settles O39: a register write of the other register's value. -/
theorem copyRegisterSetsRegister : Obligations.CopyRegisterSetsRegister :=
  fun x y => ⟨fun p => decodeFor_ldReg p x y, fun s =>
    ⟨_, exec_ldReg x y s, s.readV_writeV_same x _, sameExcept_writeV s x _⟩⟩

/-- Settles O40: three register writes, whose bits the library's lemmas on the bitwise operations give. -/
theorem bitwiseOperationsLeaveFlagAlone : Obligations.BitwiseOperationsLeaveFlagAlone := by
  refine fun x y => ⟨fun p => ⟨decodeFor_or p x y, decodeFor_and p x y, decodeFor_xor p x y⟩, fun s =>
    ⟨⟨_, exec_or x y s, sameExcept_writeV s x _, fun k => ?_⟩, ⟨_, exec_and x y s, sameExcept_writeV s x _, fun k => ?_⟩,
      ⟨_, exec_xor x y s, sameExcept_writeV s x _, fun k => ?_⟩⟩⟩
  · rw [State.readV_writeV_same, BitVec.getLsbD_or]
  · rw [State.readV_writeV_same, BitVec.getLsbD_and]
  · rw [State.readV_writeV_same, BitVec.getLsbD_xor]

/-- Settles O45: the word is the load of `I` under all parameters, and it writes `I` alone. -/
theorem loadIndexSetsIndex : Obligations.LoadIndexSetsIndex :=
  fun nnn => ⟨fun p => decodeFor_ldI p nnn, fun s =>
    ⟨_, exec_ldI nnn s, zextAddr_toNat nnn, sameExcept_writeI s _⟩⟩

end Sys2Proof.Machine
end

section
/-!
PROOFS. The exceptions family (60_exceptions.md): the precise fault, the timer tick and the core in HALTED.
-/
namespace Sys2Proof.Machine

/-! ### Which steps halt the core, and how -/

/-- DXYN alone hands the run state on, to FRAME_WAIT (41_display.md R81). -/
theorem run_mem_destParts_iff (i : Instr) : .run ∈ destParts i ↔ ∃ x y n, i = .drw x y n := by
  cases i <;> simp [destParts]

/-- An instruction that halts a running core has taken its own fault: a completed one leaves the core running, or
waiting for its frame (60_exceptions.md R114, R121). -/
theorem exec_halts {i : Instr} {s t : State} (hrun : s.run = .running) (hexec : exec i s = .next t)
    (hhalt : t.run = .halted) : ∃ c d w, t = s.raiseInInstr c d w := by
  by_cases hdraw : ∃ x y n, i = .drw x y n
  · obtain ⟨x, y, n, rfl⟩ := hdraw
    rw [exec_drw] at hexec
    rcases execDrw_cases x y n s with ⟨-, hdone⟩ | ⟨r, -, -, -, hfault⟩
    · cases hdone.symm.trans hexec
      rw [State.drawSprite_run] at hhalt
      cases hhalt
    · cases hfault.symm.trans hexec
      exact ⟨_, _, _, rfl⟩
  · obtain ⟨u, hu, hfault | ⟨-, hframe⟩⟩ := exec_answers i s
    · cases hu.symm.trans hexec
      obtain ⟨c, d, w, -, ht⟩ := hfault
      exact ⟨c, d, w, ht⟩
    · cases hu.symm.trans hexec
      have hkept : t.run = s.run := hframe.run fun hmem => hdraw ((run_mem_destParts_iff i).mp hmem)
      rw [hkept, hrun] at hhalt
      cases hhalt

/-- A step request that halts a running core is the fault entry from the state before it, whether the fetch, the decoder
or the instruction raised the fault (60_exceptions.md R114, R115). -/
theorem State.stepRequest_halts {s t : State} (hrun : s.run = .running) (hstep : s.stepRequest = .next t)
    (hhalt : t.run = .halted) : ∃ c d w, t = s.raise c s.pc d w := by
  rw [State.stepRequest_running hrun] at hstep
  rcases s.runInstr_cases with ⟨-, hfetch⟩ | ⟨-, i, -, hexec⟩ | ⟨-, e, -, hword⟩
  · cases hfetch.symm.trans hstep
    exact ⟨_, _, _, rfl⟩
  · obtain ⟨c, d, w, ht⟩ := exec_halts (s := s.advancePc) hrun (hexec.symm.trans hstep) hhalt
    exact ⟨c, d, w, ht.trans (s.raiseInInstr_advancePc c d w)⟩
  · rw [hword] at hstep
    split at hstep
    · cases hstep
      exact ⟨_, _, _, rfl⟩
    · cases hstep
      rw [State.advancePc_eq, State.writePc_run, hrun] at hhalt
      cases hhalt

/-! ### The timer tick -/

/-- A timer under `clamp`, as a number: subtraction stops at 0 (60_exceptions.md R126). -/
theorem tickTimer_clamp_toNat (t : Byte) : (tickTimer .clamp t).toNat = t.toNat - 1 := by
  simp only [tickTimer]
  split <;> bv_omega

/-- A timer under `wrap`, as a number: subtraction modulo 256 (60_exceptions.md R126). -/
theorem tickTimer_wrap_toNat (t : Byte) : (tickTimer .wrap t).toNat = (t.toNat + 255) % 256 := by
  simp only [tickTimer]
  bv_omega

/-- A tick changes the timers alone (60_exceptions.md R126). -/
theorem State.tick_eq (s : State) : s.tick = { s with dt := s.tick.dt, st := s.tick.st } := rfl

/-! ### The events in HALTED -/

/-- The timer process's event is the tick, in every run state (60_exceptions.md R126). -/
theorem State.onEvent_tick (s : State) : s.onEvent .tick = .next s.tick := rfl

/-- A step request in HALTED changes nothing, as an event too (40_step_cycle.md R72). -/
theorem State.onEvent_stepRequest_halted {s : State} (h : s.run = .halted) : s.onEvent .stepRequest = .next s := by
  change s.onStepRequest = _
  rw [State.onStepRequest, h]
  exact State.stepRequest_halted h

/-- Outside FRAME_WAIT an acceptance is no event of a run (60_exceptions.md R128; log 9). -/
theorem State.onEvent_acceptFrame_notEnabled {s : State} (h : s.run ≠ .frameWait) :
    s.onEvent .acceptFrame = .fault .acceptNotEnabled := by
  change s.onAcceptFrame = _
  rw [State.onAcceptFrame, State.acceptFrame_none h]

/-- A reset that answers a next state leaves the core running with no fault recorded (70_reset_and_hazards.md R136). -/
theorem State.onEvent_reset_clears {s t : State} {image : List Byte} (h : s.onEvent (.reset image) = .next t) :
    t.run = .running ∧ t.faultCause = .none ∧ t.faultPc = 0 ∧ t.faultAddr = 0 ∧ t.faultWord = 0 := by
  obtain ⟨fresh, hfresh, rfl⟩ := State.onReset_next h
  obtain ⟨bs, -, rfl⟩ := construct_cases hfresh
  exact ⟨rfl, rfl, rfl, rfl, rfl⟩

/-- An event that answers a next state in HALTED is a reset, or changes at most the timers (60_exceptions.md R122). -/
theorem State.onEvent_halted_cases {s t : State} {e : HostEvent} (hhalt : s.run = .halted)
    (hnext : s.onEvent e = .next t) : (∃ image, e = .reset image) ∨ t = { s with dt := t.dt, st := t.st } := by
  cases e with
  | stepRequest =>
    cases (State.onEvent_stepRequest_halted hhalt).symm.trans hnext
    exact .inr rfl
  | tick =>
    cases s.onEvent_tick.symm.trans hnext
    exact .inr s.tick_eq
  | acceptFrame =>
    have hnot : s.run ≠ .frameWait := by
      rw [hhalt]
      decide
    cases (State.onEvent_acceptFrame_notEnabled hnot).symm.trans hnext
  | reset image => exact .inl ⟨image, rfl⟩

/-! ### The statements -/

/-- Settles O20: a step request that halts is the fault entry at `pc` from the state before, whatever raised the fault. -/
theorem faultsArePrecise : Obligations.FaultsArePrecise := by
  intro s t hrun hstep hhalt
  obtain ⟨c, d, w, rfl⟩ := State.stepRequest_halts hrun hstep hhalt
  rfl

/-- Settles O18: both timers are ticked by one function, whose value is known in either mode. -/
theorem tickDecrementsBothTimers : Obligations.TickDecrementsBothTimers := by
  refine ⟨rfl, fun s => ⟨fun hclamp => ?_, fun hwrap => ?_, s.tick_eq, s.onEvent_tick⟩⟩
  · rw [State.tick_dt, State.tick_st, hclamp]
    exact ⟨tickTimer_clamp_toNat _, tickTimer_clamp_toNat _⟩
  · rw [State.tick_dt, State.tick_st, hwrap]
    exact ⟨tickTimer_wrap_toNat _, tickTimer_wrap_toNat _⟩

/-- Settles O14: by the events, of which a core in HALTED answers all but an acceptance. -/
theorem haltedIsLeftOnlyByReset : Obligations.HaltedIsLeftOnlyByReset :=
  fun s hhalt => ⟨State.stepRequest_halted hhalt, State.onEvent_stepRequest_halted hhalt, s.onEvent_tick,
    fun _ _ => State.onEvent_halted_cases hhalt, fun _ _ => State.onEvent_reset_clears⟩

end Sys2Proof.Machine
end

section
/-!
PROOFS. The reset family (70_reset_and_hazards.md): the state that construction gives.
-/
namespace Sys2Proof.Machine

/-! ### The registers after reset -/

/-- Every register is 0 after reset (70_reset_and_hazards.md R137). -/
@[simp] theorem State.readV_resetWith (p : Params) (x : Nibble) : (State.resetWith p).readV x = 0 := by
  simp [State.readV, State.resetWith, Vector.get_eq_getElem]

/-! ### The image in program space -/

/-- An image that fits lies over the reset state (70_reset_and_hazards.md R139). -/
theorem construct_of_fits (p : Params) {image : List Byte} (hfit : image.length ≤ 3584) :
    construct p image = some ((State.resetWith p).loadImage image) := if_pos hfit

/-- Inside the image a loaded core holds the image's bytes (70_reset_and_hazards.md R139). -/
theorem State.byteAt_loadImage_inside {s : State} {image : List Byte} (hwf : Memory.wf s.params.font s.mem = true)
    (hfit : image.length ≤ 3584) {k : Nat} (hk : k < image.length) :
    (s.loadImage image).byteAt (0x200 + k) = image[k] := by
  have hidx : 0x200 + k - 0x200 = k := by omega
  have hin : 0x200 ≤ 0x200 + k ∧ 0x200 + k - 0x200 < image.length := by omega
  have hread := Memory.read_load hwf image 0x200 (0x200 + k) (Nat.add_le_add_left hfit 0x200)
  rw [dif_pos hin] at hread
  exact hread.trans (by simp only [hidx])

/-- Outside the image a load changes no byte (70_reset_and_hazards.md R139). -/
theorem State.byteAt_loadImage_outside {s : State} {image : List Byte} (hwf : Memory.wf s.params.font s.mem = true)
    (hfit : image.length ≤ 3584) {a : Nat} (ha : a < 0x200 ∨ 0x200 + image.length ≤ a) :
    (s.loadImage image).byteAt a = s.byteAt a := by
  have hout : ¬ (0x200 ≤ a ∧ a - 0x200 < image.length) := by omega
  have hread := Memory.read_load hwf image 0x200 a (Nat.add_le_add_left hfit 0x200)
  rwa [dif_neg hout] at hread

/-! ### The statement -/

/-- Settles O46: an image that fits lies over the reset state, whose bytes below it are the font and 0 elsewhere; a load
changes memory alone. -/
theorem constructionGivesTheResetState : Obligations.ConstructionGivesTheResetState := by
  refine ⟨construct_nil Params.default, fun p image hfit =>
    ⟨_, construct_of_fits p hfit, State.readV_resetWith p, rfl, rfl, rfl, Display.pix_blank,
      rfl, rfl, rfl, rfl, rfl, rfl, rfl, rfl, rfl, rfl, ?image, ?font, ?zero⟩⟩
  case image => exact fun k hk => State.byteAt_loadImage_inside rfl hfit hk
  case font =>
    intro k hk
    rw [State.byteAt_loadImage_outside rfl hfit (by omega), State.byteAt_resetWith, Memory.baseline_font p.font hk]
  case zero =>
    intro a ha
    rw [State.byteAt_loadImage_outside rfl hfit (by omega), State.byteAt_resetWith,
      Memory.baseline_outside p.font (by omega)]

end Sys2Proof.Machine
end

section
/-!
PROOFS. Decoding and encoding (30_encoding.md): the two round trips, the table's rows, the unrecognised words, and the
instructions of `P_ARITH8_EXT`.
-/
namespace Sys2Proof

/-! ### The words whose instructions the families before leave out -/

/-- Family D draws (30_encoding.md R58). -/
theorem decode_of_fieldOp_thirteen {w : Word} (hop : fieldOp w = 0xD) :
    decode w = .ok (.drw (fieldX w) (fieldY w) (fieldN w)) := by
  rw [decode, hop]
  rfl

/-- The word DXYN under all parameters (41_display.md R78). -/
theorem decodeFor_drw (p : Params) (x y n : Nibble) : decodeFor p (encXYN 0xD000 x y n) = .ok (.drw x y n) := by
  have hdec : decode (encXYN 0xD000 x y n) = .ok (.drw x y n) := by
    rw [decode_of_fieldOp_thirteen (fieldOp_encXYN x y n), fieldX_encXYN rfl, fieldY_encXYN rfl, fieldN_encXYN rfl]
  exact decodeFor_of_decode hdec rfl

/-- The word 8XY5 with the extension (44_register_ops.md R108). -/
theorem decodeFor_sub {p : Params} (hext : p.arith8Ext = true) (x y : Nibble) :
    decodeFor p (encXYN 0x8000 x y 5) = .ok (.sub x y) :=
  decodeFor_encXYN_eight x y (fun w hn => by rw [decodeFamily8, hn]; rfl) hext

/-- The word 8XY6 with the extension (44_register_ops.md R109). -/
theorem decodeFor_shr {p : Params} (hext : p.arith8Ext = true) (x y : Nibble) :
    decodeFor p (encXYN 0x8000 x y 6) = .ok (.shr x y) :=
  decodeFor_encXYN_eight x y (fun w hn => by rw [decodeFamily8, hn]; rfl) hext

/-- The word 8XYE with the extension (44_register_ops.md R110). -/
theorem decodeFor_shl {p : Params} (hext : p.arith8Ext = true) (x y : Nibble) :
    decodeFor p (encXYN 0x8000 x y 0xE) = .ok (.shl x y) :=
  decodeFor_encXYN_eight x y (fun w hn => by rw [decodeFamily8, hn]; rfl) hext

/-! ### Decoding what was encoded -/

/-- Settles O1: an instruction at a time, by what the decoder makes of its word. -/
theorem decodeEncodeRoundTrip : Obligations.DecodeEncodeRoundTrip := by
  intro p i hwf
  cases i with
  | cls => rfl
  | ret => rfl
  | jp nnn => exact decodeFor_jp p nnn
  | call nnn => exact decodeFor_call p nnn
  | seImm x nn => exact decodeFor_seImm p x nn
  | sneImm x nn => exact decodeFor_sneImm p x nn
  | seReg x y => exact decodeFor_seReg p x y
  | ldImm x nn => exact decodeFor_ldImm p x nn
  | addImm x nn => exact decodeFor_addImm p x nn
  | ldReg x y => exact decodeFor_ldReg p x y
  | or x y => exact decodeFor_or p x y
  | and x y => exact decodeFor_and p x y
  | xor x y => exact decodeFor_xor p x y
  | addReg x y => exact decodeFor_addReg p x y
  | sub x y => exact decodeFor_sub hwf x y
  | shr x y => exact decodeFor_shr hwf x y
  | subn x y => exact decodeFor_subn p x y
  | shl x y => exact decodeFor_shl hwf x y
  | sneReg x y => exact decodeFor_sneReg p x y
  | ldI nnn => exact decodeFor_ldI p nnn
  | drw x y n => exact decodeFor_drw p x y n

/-- A machine's decoder reads what the table has, where the parameters allow it (30_encoding.md R61). -/
theorem decodeFor_eq_ok_iff {p : Params} {w : Word} {i : Instr} :
    decodeFor p w = .ok i ↔ decode w = .ok i ∧ i.wellFormed p = true := by
  refine ⟨fun h => ?_, fun ⟨hdec, hwf⟩ => decodeFor_of_decode hdec hwf⟩
  unfold decodeFor at h
  split at h
  · rename_i j hdec
    split at h
    · cases h
      exact ⟨hdec, ‹_›⟩
    · cases h
  · cases h

/-- An instruction that the parameters leave out is no instruction of the machine (30_encoding.md R61). -/
theorem decodeFor_of_not_wellFormed {p : Params} {w : Word} {i : Instr} (hdec : decode w = .ok i)
    (hwf : i.wellFormed p = false) : decodeFor p w = .error (.extensionAbsent w) := by
  simp only [decodeFor, hdec, hwf, Bool.false_eq_true, if_false]

/-- With every row of the table, every instruction is what its word decodes to. -/
theorem decode_encode (i : Instr) : decode (encode i) = .ok i := by
  have hwf : i.wellFormed tableParams = true := Bool.or_true _
  exact (decodeFor_eq_ok_iff.mp (decodeEncodeRoundTrip tableParams i hwf)).1

/-! ### Encoding what was decoded -/

/-- A word is its family, its X and its NN. -/
theorem encXNN_fields (w : Word) : encXNN (w &&& 0xF000) (fieldX w) (fieldNN w) = w := by
  unfold encXNN fieldX fieldNN
  ext i h
  interval_cases i <;> simp

/-- A word is its family, its X, its Y and its N. -/
theorem encXYN_fields (w : Word) : encXYN (w &&& 0xF000) (fieldX w) (fieldY w) (fieldN w) = w := by
  unfold encXYN fieldX fieldY fieldN
  ext i h
  interval_cases i <;> simp

/-- A word is its family and its NNN. -/
theorem encNNN_fields (w : Word) : encNNN (w &&& 0xF000) (fieldNNN w) = w := by
  unfold encNNN fieldNNN
  ext i h
  interval_cases i <;> simp

/-- The family as a word is the family as a field, in its place. -/
theorem and_family_eq (w : Word) : w &&& (0xF000 : Word) = (fieldOp w).setWidth 16 <<< 12 := by
  unfold fieldOp
  ext i h
  interval_cases i <;> simp

/-- The word of a family whose other bits are clear. -/
theorem and_family_of_fieldOp {w base : Word} (hb : base &&& 0x0FFF = 0) (hop : fieldOp w = fieldOp base) :
    w &&& 0xF000 = base := by
  rw [and_family_eq, hop, ← and_family_eq]
  ext i h
  interval_cases i <;> simp [getElem_base hb]

/-- A word of a family with X and NN free is the family's word with its own fields. -/
theorem encXNN_of_and_family {w base : Word} (h : w &&& 0xF000 = base) : encXNN base (fieldX w) (fieldNN w) = w := by
  rw [← h, encXNN_fields]

/-- A word of a family with NNN free is the family's word with its own fields. -/
theorem encNNN_of_and_family {w base : Word} (h : w &&& 0xF000 = base) : encNNN base (fieldNNN w) = w := by
  rw [← h, encNNN_fields]

/-- A word of a family with X, Y and N free is the family's word with its own fields. -/
theorem encXYN_of_and_family {w base : Word} {n : Nibble} (h : w &&& 0xF000 = base) (hn : fieldN w = n) :
    encXYN base (fieldX w) (fieldY w) n = w := by
  rw [← h, ← hn, encXYN_fields]

/-- Family 0 decodes its two exact words (30_encoding.md R59). -/
theorem encode_of_decodeFamily0 {w : Word} {i : Instr} (h : decodeFamily0 w = .ok i) : encode i = w := by
  unfold decodeFamily0 at h
  split at h
  · cases h
    exact Eq.symm ‹_›
  · split at h
    · cases h
      exact Eq.symm ‹_›
    · cases h

/-- Families 5 and 9 decode words with N = 0 only (30_encoding.md R60). -/
theorem decodeN0_eq_ok {w : Word} {i j : Instr} (h : decodeN0 w j = .ok i) : j = i ∧ fieldN w = 0 := by
  unfold decodeN0 at h
  split at h
  · cases h
    exact ⟨rfl, ‹_›⟩
  · cases h

/-- Family 8 decodes to the row of its N (30_encoding.md R61). -/
theorem encode_of_decodeFamily8 {w : Word} {i : Instr} (hop : fieldOp w = 8) (h : decodeFamily8 w = .ok i) :
    encode i = w := by
  unfold decodeFamily8 at h
  have hfamily : w &&& 0xF000 = 0x8000 := and_family_of_fieldOp rfl hop
  split at h <;> cases h <;> exact encXYN_of_and_family hfamily ‹_›

/-- A word that decodes is the word of its instruction (30_encoding.md R57). -/
theorem encode_of_decode {w : Word} {i : Instr} (h : decode w = .ok i) : encode i = w := by
  unfold decode at h
  split at h
  case h_1 => exact encode_of_decodeFamily0 h
  case h_2 hop | h_3 hop | h_11 hop =>
    cases h
    exact encNNN_of_and_family (and_family_of_fieldOp rfl hop)
  case h_4 hop | h_5 hop | h_7 hop | h_8 hop =>
    cases h
    exact encXNN_of_and_family (and_family_of_fieldOp rfl hop)
  case h_6 hop | h_10 hop =>
    obtain ⟨rfl, hn⟩ := decodeN0_eq_ok h
    exact encXYN_of_and_family (and_family_of_fieldOp rfl hop) hn
  case h_9 hop => exact encode_of_decodeFamily8 hop h
  case h_12 hop =>
    cases h
    exact encXYN_of_and_family (and_family_of_fieldOp rfl hop) rfl
  case h_13 => cases h

/-- Settles O2: the table's decoder inverts the encoder, and a machine's decoder checks the parameters. -/
theorem encodeDecodeRoundTrip : Obligations.EncodeDecodeRoundTrip := by
  intro p w i h
  obtain ⟨hdec, hwf⟩ := decodeFor_eq_ok_iff.mp h
  exact ⟨encode_of_decode hdec, hwf⟩

/-! ### The rows of the opcode table -/

/-- The word of an instruction lies in the instruction's row, whatever the instruction. -/
theorem encode_and_mask (i : Instr) : encode i &&& i.row.mask = i.row.pattern := by
  cases i with
  | cls => exact Laws.TableRow.cls
  | ret => exact Laws.TableRow.ret
  | jp nnn => exact Laws.TableRow.jp nnn
  | call nnn => exact Laws.TableRow.call nnn
  | seImm x nn => exact Laws.TableRow.seImm x nn
  | sneImm x nn => exact Laws.TableRow.sneImm x nn
  | seReg x y => exact Laws.TableRow.seReg x y
  | ldImm x nn => exact Laws.TableRow.ldImm x nn
  | addImm x nn => exact Laws.TableRow.addImm x nn
  | ldReg x y => exact Laws.TableRow.ldReg x y
  | or x y => exact Laws.TableRow.or x y
  | and x y => exact Laws.TableRow.and x y
  | xor x y => exact Laws.TableRow.xor x y
  | addReg x y => exact Laws.TableRow.addReg x y
  | sub x y => exact Laws.TableRow.sub x y
  | shr x y => exact Laws.TableRow.shr x y
  | subn x y => exact Laws.TableRow.subn x y
  | shl x y => exact Laws.TableRow.shl x y
  | sneReg x y => exact Laws.TableRow.sneReg x y
  | ldI nnn => exact Laws.TableRow.ldI nnn
  | drw x y n => exact Laws.TableRow.drw x y n

theorem row_holds_iff {r : OpcodeRow} {w : Word} : r.holds w = true ↔ w &&& r.mask = r.pattern := beq_iff_eq

/-- The mask of a row with X and Y free keeps the family. -/
theorem fieldOp_and_sub (w : Word) : fieldOp (w &&& 0xF00F) = fieldOp w := by
  unfold fieldOp
  ext i h
  interval_cases i <;> simp

/-- The mask of a row with X and Y free keeps N. -/
theorem fieldN_and_sub (w : Word) : fieldN (w &&& 0xF00F) = fieldN w := by
  unfold fieldN
  ext i h
  interval_cases i <;> simp

/-- A word in a row with X and Y free is the row's word with its own fields. -/
theorem encXYN_of_and_sub {w base : Word} {n : Nibble} (hb : base &&& 0x0FFF = 0)
    (h : w &&& 0xF00F = base ||| n.setWidth 16) : encXYN base (fieldX w) (fieldY w) n = w := by
  have hrow : w &&& 0xF00F = encXYN base (fieldX w) (fieldY w) n &&& 0xF00F := by
    rw [encXYN_and_sub, ← h, BitVec.and_assoc, BitVec.and_self]
  have hop : fieldOp w = fieldOp base := by
    rw [← fieldOp_and_sub, hrow, fieldOp_and_sub, fieldOp_encXYN]
  have hn : fieldN w = n := by
    rw [← fieldN_and_sub, hrow, fieldN_and_sub, fieldN_encXYN hb]
  exact encXYN_of_and_family (and_family_of_fieldOp hb hop) hn

/-- A word in an instruction's row is the word of an instruction of that row. -/
theorem exists_encode_of_row {w : Word} (j : Instr) (h : w &&& j.row.mask = j.row.pattern) :
    ∃ i, encode i = w ∧ i.row = j.row := by
  cases j with
  | cls => exact ⟨.cls, (BitVec.and_allOnes.symm.trans h).symm, rfl⟩
  | ret => exact ⟨.ret, (BitVec.and_allOnes.symm.trans h).symm, rfl⟩
  | jp => exact ⟨.jp (fieldNNN w), encNNN_of_and_family h, rfl⟩
  | call => exact ⟨.call (fieldNNN w), encNNN_of_and_family h, rfl⟩
  | seImm => exact ⟨.seImm (fieldX w) (fieldNN w), encXNN_of_and_family h, rfl⟩
  | sneImm => exact ⟨.sneImm (fieldX w) (fieldNN w), encXNN_of_and_family h, rfl⟩
  | seReg => exact ⟨.seReg (fieldX w) (fieldY w), encXYN_of_and_sub rfl h, rfl⟩
  | ldImm => exact ⟨.ldImm (fieldX w) (fieldNN w), encXNN_of_and_family h, rfl⟩
  | addImm => exact ⟨.addImm (fieldX w) (fieldNN w), encXNN_of_and_family h, rfl⟩
  | ldReg => exact ⟨.ldReg (fieldX w) (fieldY w), encXYN_of_and_sub rfl h, rfl⟩
  | or => exact ⟨.or (fieldX w) (fieldY w), encXYN_of_and_sub rfl h, rfl⟩
  | and => exact ⟨.and (fieldX w) (fieldY w), encXYN_of_and_sub rfl h, rfl⟩
  | xor => exact ⟨.xor (fieldX w) (fieldY w), encXYN_of_and_sub rfl h, rfl⟩
  | addReg => exact ⟨.addReg (fieldX w) (fieldY w), encXYN_of_and_sub rfl h, rfl⟩
  | sub => exact ⟨.sub (fieldX w) (fieldY w), encXYN_of_and_sub rfl h, rfl⟩
  | shr => exact ⟨.shr (fieldX w) (fieldY w), encXYN_of_and_sub rfl h, rfl⟩
  | subn => exact ⟨.subn (fieldX w) (fieldY w), encXYN_of_and_sub rfl h, rfl⟩
  | shl => exact ⟨.shl (fieldX w) (fieldY w), encXYN_of_and_sub rfl h, rfl⟩
  | sneReg => exact ⟨.sneReg (fieldX w) (fieldY w), encXYN_of_and_sub rfl h, rfl⟩
  | ldI => exact ⟨.ldI (fieldNNN w), encNNN_of_and_family h, rfl⟩
  | drw => exact ⟨.drw (fieldX w) (fieldY w) (fieldN w), encXYN_of_and_family h rfl, rfl⟩

/-- Settles O4: a decoded word is its instruction's, which lies in its row; a word in a row is an instruction's of that
row, which its word decodes to. -/
theorem decodeFollowsOpcodeTable : Obligations.DecodeFollowsOpcodeTable := by
  refine fun w => ⟨fun i hdec => ?_, fun j hrow => ?_⟩
  · rw [row_holds_iff, ← encode_of_decode hdec]
    exact encode_and_mask i
  · obtain ⟨i, rfl, hij⟩ := exists_encode_of_row j (row_holds_iff.mp hrow)
    exact ⟨i, decode_encode i, hij⟩

/-- Settles O3: the word decodes to an instruction of either row, and it decodes to one instruction. -/
theorem opcodePatternsDisjoint : Obligations.OpcodePatternsDisjoint := by
  intro w i j hi hj
  obtain ⟨-, hdecodes⟩ := decodeFollowsOpcodeTable w
  obtain ⟨a, ha, hai⟩ := hdecodes i hi
  obtain ⟨b, hb, hbj⟩ := hdecodes j hj
  cases ha.symm.trans hb
  exact hai.symm.trans hbj

/-! ### The unrecognised words -/

/-- Family 0 recognises two words (30_encoding.md R59). -/
theorem decodeFamily0_error_iff (w : Word) : (∃ e, decodeFamily0 w = .error e) ↔ w ≠ 0x00E0 ∧ w ≠ 0x00EE := by
  unfold decodeFamily0
  split
  · simp_all
  · split <;> simp_all

/-- Families 5 and 9 recognise N = 0 (30_encoding.md R60). -/
theorem decodeN0_error_iff (w : Word) (i : Instr) : (∃ e, decodeN0 w i = .error e) ↔ fieldN w ≠ 0 := by
  unfold decodeN0
  split <;> simp_all

/-- Family 8 recognises nine values of N (30_encoding.md R61). -/
theorem decodeFamily8_error_iff (w : Word) :
    (∃ e, decodeFamily8 w = .error e) ↔ fieldN w ∈ [0x8#4, 0x9#4, 0xA#4, 0xB#4, 0xC#4, 0xD#4, 0xF#4] := by
  unfold decodeFamily8
  generalize fieldN w = n
  split
  case h_10 =>
    have hrest : ∀ n : Nibble, n ∉ [0x0#4, 0x1#4, 0x2#4, 0x3#4, 0x4#4, 0x5#4, 0x6#4, 0x7#4, 0xE#4] →
        n ∈ [0x8#4, 0x9#4, 0xA#4, 0xB#4, 0xC#4, 0xD#4, 0xF#4] := by decide
    exact ⟨fun _ => hrest n (by simp_all), fun _ => ⟨_, rfl⟩⟩
  all_goals exact ⟨fun ⟨_, h⟩ => (by cases h), fun h => absurd h (by decide)⟩

/-- The words that lie in no row of the table, by family (30_encoding.md R62). -/
theorem decode_error_iff (w : Word) :
    (∃ e, decode w = .error e) ↔
      (fieldOp w = 0x0#4 ∧ w ≠ 0x00E0 ∧ w ≠ 0x00EE) ∨
      (fieldOp w = 0x5#4 ∧ fieldN w ≠ 0x0#4) ∨
      (fieldOp w = 0x8#4 ∧ fieldN w ∈ [0x8#4, 0x9#4, 0xA#4, 0xB#4, 0xC#4, 0xD#4, 0xF#4]) ∨
      (fieldOp w = 0x9#4 ∧ fieldN w ≠ 0x0#4) ∨
      fieldOp w ∈ [0xB#4, 0xC#4, 0xE#4, 0xF#4] := by
  unfold decode
  split
  case h_1 hop => simp [hop, decodeFamily0_error_iff]
  case h_6 hop | h_10 hop => simp [hop, decodeN0_error_iff]
  case h_9 hop => simp [hop, decodeFamily8_error_iff]
  case h_13 =>
    have hrest : ∀ op : Nibble,
        op ∉ [0x0#4, 0x1#4, 0x2#4, 0x3#4, 0x4#4, 0x5#4, 0x6#4, 0x7#4, 0x8#4, 0x9#4, 0xA#4, 0xD#4] →
        op ∈ [0xB#4, 0xC#4, 0xE#4, 0xF#4] := by decide
    exact ⟨fun _ => .inr (.inr (.inr (.inr (hrest _ (by simp_all))))), fun _ => ⟨_, rfl⟩⟩
  all_goals
    rename_i hop
    simp [hop]

/-- The instructions of the extension are those of family 8 with N = 5, 6 and E (30_encoding.md R61). -/
theorem isExtension_iff_fields (i : Instr) :
    i.isExtension = true ↔ fieldOp (encode i) = 0x8#4 ∧ fieldN (encode i) ∈ [0x5#4, 0x6#4, 0xE#4] := by
  cases i <;>
    simp [Instr.isExtension, encode, fieldOp_encXNN, fieldOp_encXYN, fieldOp_encNNN, fieldN_encXYN] <;>
    simp [fieldOp]

/-- What a machine does not recognise: the words in no row, and the extension's where it is absent (30_encoding.md R61). -/
theorem decodeFor_error_iff (p : Params) (w : Word) :
    (∃ e, decodeFor p w = .error e) ↔
      (∃ e, decode w = .error e) ∨
      (fieldOp w = 0x8#4 ∧ fieldN w ∈ [0x5#4, 0x6#4, 0xE#4] ∧ p.arith8Ext = false) := by
  cases hdec : decode w with
  | error e => exact iff_of_true ⟨e, by rw [decodeFor, hdec]⟩ (.inl ⟨e, rfl⟩)
  | ok i =>
    have hext := isExtension_iff_fields i
    rw [encode_of_decode hdec] at hext
    cases hwf : i.wellFormed p with
    | true =>
      have hallowed : i.isExtension = true → p.arith8Ext = true := by
        simpa [Instr.wellFormed, imp_iff_not_or] using hwf
      rw [decodeFor_of_decode hdec hwf]
      refine iff_of_false nofun ?_
      rintro (⟨e, he⟩ | ⟨hop, hn, hno⟩)
      · cases he
      · cases hno.symm.trans (hallowed (hext.mpr ⟨hop, hn⟩))
    | false =>
      have hrefused : i.isExtension = true ∧ p.arith8Ext = false := by simpa [Instr.wellFormed] using hwf
      obtain ⟨hop, hn⟩ := hext.mp hrefused.1
      exact iff_of_true ⟨_, decodeFor_of_not_wellFormed hdec hwf⟩ (.inr ⟨hop, hn, hrefused.2⟩)

/-- Settles O5: the words in no row of the table and the extension's, family by family. -/
theorem unrecognisedWordsAreTheListed : Obligations.UnrecognisedWordsAreTheListed := by
  intro p w
  rw [decodeFor_error_iff, decode_error_iff]
  simp only [fieldOp, fieldN]
  tauto

/-- Settles O6: each word is decoded. -/
theorem sampleWordsDecode : Obligations.SampleWordsDecode := by
  unfold Obligations.SampleWordsDecode
  decide

end Sys2Proof
end

section
/-!
PROOFS. The arithmetic extension (44_register_ops.md R108 to R110): 8XY5, 8XY6 and 8XYE.
-/
namespace Sys2Proof.Machine

/-! ### The meanings of the instructions -/

/-- 8XY5 (44_register_ops.md R108). -/
theorem exec_sub (x y : Nibble) (s : State) :
    exec (.sub x y) s =
      .next (s.writeResultAndFlag x (subWrap (s.readV x) (s.readV y)) (noBorrow (s.readV x) (s.readV y))) := rfl

/-- 8XY6 (44_register_ops.md R109). -/
theorem exec_shr (x y : Nibble) (s : State) :
    exec (.shr x y) s =
      .next (s.writeResultAndFlag x (shiftRight1 (s.readV x)) (shiftedOutRight (s.readV x))) := rfl

/-- 8XYE (44_register_ops.md R110). -/
theorem exec_shl (x y : Nibble) (s : State) :
    exec (.shl x y) s =
      .next (s.writeResultAndFlag x (shiftLeft1 (s.readV x)) (shiftedOutLeft (s.readV x))) := rfl

/-! ### Results and flags -/

/-- The shift right as the operation on bit vectors (44_register_ops.md R109). -/
theorem shiftRight1_eq (v : Byte) : shiftRight1 v = v >>> 1 := by
  apply BitVec.eq_of_toNat_eq
  rw [shiftRight1_toNat, BitVec.toNat_ushiftRight, Nat.shiftRight_eq_div_pow, pow_one]

/-- The shift left as the operation on bit vectors (44_register_ops.md R110). -/
theorem shiftLeft1_eq (v : Byte) : shiftLeft1 v = v <<< 1 := by
  apply BitVec.eq_of_toNat_eq
  rw [shiftLeft1_toNat, BitVec.toNat_shiftLeft, Nat.shiftLeft_eq, pow_one]

/-- The no-borrow flag as a byte (44_register_ops.md R108). -/
theorem flagByte_noBorrow (a b : Byte) : flagByte (noBorrow a b) = if a.toNat ≥ b.toNat then 1 else 0 :=
  flagByte_decide _

/-! ### The statements -/

/-- Settles O43: the write of result and flag, with the difference and the comparison as the statement writes them. -/
theorem subtractExtensionSetsNoBorrowFlag : Obligations.SubtractExtensionSetsNoBorrowFlag := by
  refine fun x y => ⟨fun p hext => decodeFor_sub hext x y,
    fun p hno => ⟨_, decodeFor_of_not_wellFormed (decode_encode (.sub x y)) hno⟩, fun s =>
    ⟨_, exec_sub x y s, ?_, sameExcept_writeResultAndFlag s x _ _⟩⟩
  rw [← subWrap_eq, ← flagByte_noBorrow]
  exact s.writeResultAndFlag_regs x _ _

/-- Settles O44: two writes of result and flag, with the shifts as the statement writes them; neither reads V[y]. -/
theorem shiftExtensionPutsLostBitInFlag : Obligations.ShiftExtensionPutsLostBitInFlag := by
  refine fun x y => ⟨fun p hext => ⟨decodeFor_shr hext x y, decodeFor_shl hext x y⟩,
    fun p hno => ⟨⟨_, decodeFor_of_not_wellFormed (decode_encode (.shr x y)) hno⟩,
      ⟨_, decodeFor_of_not_wellFormed (decode_encode (.shl x y)) hno⟩⟩,
    fun s => ⟨⟨_, exec_shr x y s, sameExcept_writeResultAndFlag s x _ _, ?_⟩,
      ⟨_, exec_shl x y s, sameExcept_writeResultAndFlag s x _ _, ?_⟩⟩⟩
  · rw [← shiftRight1_eq]
    exact s.writeResultAndFlag_regs x _ _
  · rw [← shiftLeft1_eq]
    exact s.writeResultAndFlag_regs x _ _

end Sys2Proof.Machine
end

section
/-!
PROOFS. What an instruction changes and what it reads (10_state.md), over all 21 of them.
-/
namespace Sys2Proof.Machine

/-! ### What no instruction changes -/

/-- The fields that only construction, a tick, or the agents around the core change (10_state.md R15). -/
structure Keeps (s t : State) : Prop where
  mem : t.mem = s.mem
  params : t.params = s.params
  dt : t.dt = s.dt
  st : t.st = s.st
  inputs : t.inputs = s.inputs
  idle : t.idle = s.idle
  requestHeld : t.requestHeld = s.requestHeld
  delivered : t.delivered = s.delivered

theorem Keeps.refl (s : State) : Keeps s s := ⟨rfl, rfl, rfl, rfl, rfl, rfl, rfl, rfl⟩

/-- Moving `pc` before is nothing that counts. -/
theorem Keeps.of_writePc {s t : State} {w : Word} (h : Keeps (s.writePc w) t) : Keeps s t := { h with }

/-- A fault entry keeps all of them (60_exceptions.md R115). -/
theorem keeps_raise (s : State) (c : FaultCause) (a d w : Word) : Keeps s (s.raise c a d w) :=
  ⟨rfl, rfl, rfl, rfl, rfl, rfl, rfl, rfl⟩

/-- An instruction that answers has taken a fault of its own or has completed within its frame (10_state.md R15,
60_exceptions.md R114). -/
theorem exec_fault_or_frame {i : Instr} {s t : State} (h : exec i s = .next t) :
    (∃ c d w, (c = .oobSpriteRead ∨ c = .stackOverflow) ∧ t = s.raiseInInstr c d w) ∨
      (Completes s t ∧ SameExcept (destRegs i) (destParts i) s t) := by
  obtain ⟨u, hu, hcases⟩ := exec_answers i s
  cases hu.symm.trans h
  exact hcases

theorem exec_keeps {i : Instr} {s t : State} (h : exec i s = .next t) : Keeps s t := by
  rcases exec_fault_or_frame h with ⟨c, d, w, -, rfl⟩ | ⟨⟨v, i, pc, stack, display, run, pending, warnings, rfl⟩, -⟩
  · exact (keeps_raise s.stepStart c s.instrAddr d w).of_writePc
  · exact ⟨rfl, rfl, rfl, rfl, rfl, rfl, rfl, rfl⟩

/-! ### Which instruction has which part in its frame -/

theorem display_mem_destParts_iff (i : Instr) : .display ∈ destParts i ↔ i = .cls ∨ ∃ x y n, i = .drw x y n := by
  cases i <;> simp [destParts]

theorem i_mem_destParts_iff (i : Instr) : .i ∈ destParts i ↔ ∃ nnn, i = .ldI nnn := by
  cases i <;> simp [destParts]

theorem stack_mem_destParts_iff (i : Instr) : .stack ∈ destParts i ↔ i = .ret ∨ ∃ nnn, i = .call nnn := by
  cases i <;> simp [destParts]

theorem warnings_mem_destParts_iff (i : Instr) : .warnings ∈ destParts i ↔ i = .ret := by
  cases i <;> simp [destParts]

theorem pendingFrame_mem_destParts_iff (i : Instr) : .pendingFrame ∈ destParts i ↔ ∃ x y n, i = .drw x y n := by
  cases i <;> simp [destParts]

/-- The instructions with `VF` in their frame (10_state.md R14). -/
theorem of_vf_mem_destRegs {i : Instr} (h : vf ∈ destRegs i) :
    (∃ x y, i = .addReg x y) ∨ (∃ x y, i = .subn x y) ∨ (∃ x y n, i = .drw x y n) ∨
    (∃ x y, i = .sub x y) ∨ (∃ x y, i = .shr x y) ∨ (∃ x y, i = .shl x y) ∨
    (∃ nn, i = .ldImm vf nn) ∨ (∃ nn, i = .addImm vf nn) ∨ (∃ y, i = .ldReg vf y) ∨
    (∃ y, i = .or vf y) ∨ (∃ y, i = .and vf y) ∨ (∃ y, i = .xor vf y) := by
  cases i <;> simp_all [destRegs]

/-! ### The run state after an instruction -/

@[simp] theorem State.skipIf_run (s : State) (b : Bool) : (s.skipIf b).run = s.run := by
  cases b <;> rfl

@[simp] theorem State.writeResultAndFlag_run (s : State) (x : Nibble) (r : Byte) (f : Bool) :
    (s.writeResultAndFlag x r f).run = s.run := by
  obtain ⟨v, hv⟩ := s.writeResultAndFlag_eq x r f
  rw [hv]

/-- The calls and the draws alone change the run state: the others neither fault nor wait (60_exceptions.md R121). -/
theorem exec_run_eq {i : Instr} {s t : State} (hcall : ∀ nnn, i ≠ .call nnn) (hdraw : ∀ x y n, i ≠ .drw x y n)
    (h : exec i s = .next t) : t.run = s.run := by
  cases i with
  | call nnn => exact absurd rfl (hcall nnn)
  | drw x y n => exact absurd rfl (hdraw x y n)
  | ret =>
    cases hstack : s.stack with
    | nil => cases (exec_ret_of_nil hstack).symm.trans h; rfl
    | cons top rest => cases (exec_ret_of_cons hstack).symm.trans h; rfl
  | seImm | sneImm | seReg | sneReg => cases h; exact s.skipIf_run _
  | addReg | sub | shr | subn | shl => cases h; exact s.writeResultAndFlag_run _ _ _
  | _ => cases h; rfl

/-! ### The statements on changes -/

/-- Settles O24: outside the fault entry, `VF` changes only where it is in the instruction's frame. -/
theorem flagRegisterChangesOnlyAsNamed : Obligations.FlagRegisterChangesOnlyAsNamed := by
  intro i s t h hchanged
  rcases exec_fault_or_frame h with ⟨c, d, w, -, rfl⟩ | ⟨-, hframe⟩
  · exact absurd rfl hchanged
  · exact of_vf_mem_destRegs (by_contra fun hnot => hchanged (hframe.v vf hnot))

/-- Settles O23: each part by the instructions that have it in their frame; the warning of 00EE by its two cases, the run
state by the instructions that fault or wait. -/
theorem onlyNamedInstructionsChangeEachPart : Obligations.OnlyNamedInstructionsChangeEachPart := by
  intro i s t h
  have hkeeps := exec_keeps h
  have hrun : t.run ≠ s.run → (∃ nnn, i = .call nnn) ∨ ∃ x y n, i = .drw x y n := by
    intro hchanged
    by_contra hnot
    push Not at hnot
    exact hchanged (exec_run_eq hnot.1 hnot.2 h)
  have hrest : t.dt = s.dt ∧ t.st = s.st ∧ t.params = s.params ∧ t.inputs = s.inputs ∧ t.idle = s.idle ∧
      t.requestHeld = s.requestHeld ∧ t.delivered = s.delivered :=
    ⟨hkeeps.dt, hkeeps.st, hkeeps.params, hkeeps.inputs, hkeeps.idle, hkeeps.requestHeld, hkeeps.delivered⟩
  rcases exec_fault_or_frame h with ⟨c, d, w, -, rfl⟩ | ⟨-, hframe⟩
  · exact ⟨absurd rfl, absurd rfl, absurd rfl, absurd rfl, hrun, absurd rfl, hrest⟩
  · refine ⟨fun hne => (display_mem_destParts_iff i).mp (by_contra fun hnot => hne (hframe.display hnot)),
      fun hne => (i_mem_destParts_iff i).mp (by_contra fun hnot => hne (hframe.i hnot)),
      fun hne => (stack_mem_destParts_iff i).mp (by_contra fun hnot => hne (hframe.stack hnot)),
      fun hne => ?warnings, hrun,
      fun hne => (pendingFrame_mem_destParts_iff i).mp (by_contra fun hnot => hne (hframe.pendingFrame hnot)), hrest⟩
    obtain rfl := (warnings_mem_destParts_iff i).mp (by_contra fun hnot => hne (hframe.warnings hnot))
    cases hstack : s.stack with
    | nil => exact ⟨rfl, rfl⟩
    | cons top rest =>
      cases (exec_ret_of_cons hstack).symm.trans h
      exact absurd rfl hne

/-! ### What an instruction reads -/

/-- An update of the state that no register, no stack access, no fault entry and no write of `pc` notices. -/
structure Unnoticed (f : State → State) : Prop where
  readV : ∀ s x, (f s).readV x = s.readV x
  pc : ∀ s, (f s).pc = s.pc
  stack : ∀ s, (f s).stack = s.stack
  params : ∀ s, (f s).params = s.params
  writeV : ∀ s x b, (f s).writeV x b = f (s.writeV x b)
  writePc : ∀ s w, (f s).writePc w = f (s.writePc w)
  setStack : ∀ s stack, { f s with stack := stack } = f { s with stack := stack }
  warn : ∀ s k a, (f s).warn k a = f (s.warn k a)
  raiseInInstr : ∀ s c d w, (f s).raiseInInstr c d w = f (s.raiseInInstr c d w)

namespace Unnoticed

variable {f : State → State} (hf : Unnoticed f)
include hf

theorem skipIf (s : State) (b : Bool) : (f s).skipIf b = f (s.skipIf b) := by
  cases b with
  | false => rfl
  | true => exact (hf.writePc s _).trans (by rw [hf.pc]; rfl)

theorem writeResultAndFlag (s : State) (x : Nibble) (r : Byte) (b : Bool) :
    (f s).writeResultAndFlag x r b = f (s.writeResultAndFlag x r b) := by
  simp only [State.writeResultAndFlag, hf.params, hf.writeV]
  split <;> rfl

/-- The instructions but 00E0, ANNN and DXYN do the same with and without the update. -/
theorem exec {i : Instr} {s t : State} (hcls : i ≠ .cls) (hldI : ∀ nnn, i ≠ .ldI nnn)
    (hdraw : ∀ x y n, i ≠ .drw x y n) (h : Machine.exec i s = .next t) : Machine.exec i (f s) = .next (f t) := by
  cases i with
  | cls => exact absurd rfl hcls
  | ldI nnn => exact absurd rfl (hldI nnn)
  | drw x y n => exact absurd rfl (hdraw x y n)
  | ret =>
    cases hstack : s.stack with
    | nil =>
      cases (exec_ret_of_nil hstack).symm.trans h
      rw [exec_ret_of_nil ((hf.stack s).trans hstack), hf.warn, hf.writePc, State.instrAddr, hf.pc]
      rfl
    | cons top rest =>
      cases (exec_ret_of_cons hstack).symm.trans h
      rw [exec_ret_of_cons ((hf.stack s).trans hstack), hf.setStack, hf.writePc]
  | call nnn =>
    by_cases hfull : s.params.stackDepth = some s.stack.length
    · cases (exec_call_of_full nnn hfull).symm.trans h
      rw [exec_call_of_full nnn (by rwa [hf.params, hf.stack]), hf.raiseInInstr]
    · cases (exec_call_of_room nnn hfull).symm.trans h
      rw [exec_call_of_room nnn (by rwa [hf.params, hf.stack]), State.push, hf.setStack, hf.writePc, hf.pc, hf.stack]
      rfl
  | jp nnn => cases h; rw [exec_jp, hf.writePc]
  | seImm x nn => cases h; rw [exec_seImm, hf.skipIf, hf.readV]
  | sneImm x nn => cases h; rw [exec_sneImm, hf.skipIf, hf.readV]
  | seReg x y => cases h; rw [exec_seReg, hf.skipIf, hf.readV, hf.readV]
  | sneReg x y => cases h; rw [exec_sneReg, hf.skipIf, hf.readV, hf.readV]
  | ldImm x nn => cases h; rw [exec_ldImm, hf.writeV]
  | addImm x nn => cases h; rw [exec_addImm, hf.writeV, hf.readV]
  | ldReg x y => cases h; rw [exec_ldReg, hf.writeV, hf.readV]
  | or x y => cases h; rw [exec_or, hf.writeV, hf.readV, hf.readV]
  | and x y => cases h; rw [exec_and, hf.writeV, hf.readV, hf.readV]
  | xor x y => cases h; rw [exec_xor, hf.writeV, hf.readV, hf.readV]
  | addReg x y => cases h; rw [exec_addReg, hf.writeResultAndFlag, hf.readV, hf.readV]
  | sub x y => cases h; rw [exec_sub, hf.writeResultAndFlag, hf.readV, hf.readV]
  | shr x y => cases h; rw [exec_shr, hf.writeResultAndFlag, hf.readV]
  | subn x y => cases h; rw [exec_subn, hf.writeResultAndFlag, hf.readV, hf.readV]
  | shl x y => cases h; rw [exec_shl, hf.writeResultAndFlag, hf.readV]

end Unnoticed

/-- No instruction but 00E0, ANNN and DXYN notices memory, `I` or the display. -/
theorem unnoticed_memIndexDisplay (m : Memory) (w : Word) (d : Display) :
    Unnoticed fun s => { s with mem := m, i := w, display := d } := by
  constructor <;> intros <;> rfl

/-- No instruction notices the timers (70_reset_and_hazards.md R147). -/
theorem unnoticed_timers (dt st : Byte) : Unnoticed fun s => { s with dt := dt, st := st } := by
  constructor <;> intros <;> rfl

/-- Settles O25: memory, `I` and the display are unnoticed by every instruction that is none of the three. -/
theorem onlyDrawReadsMemoryIndexDisplay : Obligations.OnlyDrawReadsMemoryIndexDisplay :=
  fun _ _ _ hcls hldI hdraw h m w d => (unnoticed_memIndexDisplay m w d).exec hcls hldI hdraw h

/-- An instruction does the same at all values of the timers (70_reset_and_hazards.md R147). -/
theorem exec_withTimers {i : Instr} {s t : State} (h : exec i s = .next t) (dt st : Byte) :
    exec i { s with dt := dt, st := st } = .next { t with dt := dt, st := st } := by
  by_cases hcls : i = .cls
  · subst hcls; cases h; rfl
  by_cases hldI : ∃ nnn, i = .ldI nnn
  · obtain ⟨nnn, rfl⟩ := hldI; cases h; rfl
  by_cases hdraw : ∃ x y n, i = .drw x y n
  · obtain ⟨x, y, n, rfl⟩ := hdraw
    rcases execDrw_cases x y n s with ⟨hread, hdone⟩ | ⟨r, hr, hbad, hfirst, hfault⟩
    · cases hdone.symm.trans h
      exact execDrw_completes x y n { s with dt := dt, st := st } hread
    · cases hfault.symm.trans h
      exact execDrw_faults x y n { s with dt := dt, st := st } r hr hfirst hbad
  · push Not at hldI hdraw
    exact (unnoticed_timers dt st).exec hcls hldI hdraw h

end Sys2Proof.Machine
end

section
/-!
PROOFS. Draws in full (41_display.md): the draw of no rows, and the same draw twice.
-/
namespace Sys2Proof.Machine

/-- A DXYN whose drawn rows all lie inside memory (41_display.md R78). -/
theorem exec_drw_of_readable {s : State} (x : Nibble) {y n : Nibble} (h : SpriteReadable s y n) :
    exec (.drw x y n) s = .next (s.drawSprite x y (s.spriteBytes y n)) :=
  (exec_drw x y n s).trans (execDrw_completes x y n s h)

/-! ### The draw of no rows -/

/-- No row is read where none is drawn (41_display.md R83). -/
theorem spriteReadable_zero (s : State) (y : Nibble) : SpriteReadable s y 0 :=
  fun _ hr => absurd (Nat.lt_of_lt_of_le hr (Nat.min_le_left _ _)) (Nat.not_lt_zero _)

theorem State.spriteBytes_zero (s : State) (y : Nibble) : s.spriteBytes y 0 = [] := by
  have hrows : s.spriteRows y 0 = 0 := Nat.zero_min _
  rw [State.spriteBytes, hrows]
  rfl

/-- A draw of no rows clears `VF` and hands the frame over (41_display.md R83). -/
theorem exec_drw_zero (x y : Nibble) (s : State) : exec (.drw x y 0) s = .next (s.writeV vf 0).emitFrame := by
  rw [exec_drw_of_readable x (spriteReadable_zero s y), State.spriteBytes_zero]
  rfl

/-- The frame of a frame's emission (41_display.md R81). -/
theorem sameExcept_emitFrame (s : State) : SameExcept [] [.run, .pendingFrame] s s.emitFrame := by
  constructor
  case run | pendingFrame => exact fun hnot => absurd (by decide) hnot
  all_goals intros; rfl

/-- Settles O28: the draw loop over no rows leaves the display and finds no collision. -/
theorem drawOfZeroRowsOnlyClearsFlag : Obligations.DrawOfZeroRowsOnlyClearsFlag := by
  refine fun s x y => ⟨_, exec_drw_zero x y s, rfl, s.readV_writeV_same vf 0, rfl, rfl, ?_⟩
  have hwrite : SameExcept [vf] [.run, .pendingFrame] s (s.writeV vf 0) :=
    (sameExcept_writeV s vf 0).mono (fun _ => id) (by simp)
  exact hwrite.trans_regs (sameExcept_emitFrame _) (fun _ => id) (by simp)

/-! ### The same draw twice -/

/-- The sprite depends on two registers, `I` and the bytes (41_display.md R78, R79). -/
theorem spriteBit_congr {s t : State} {x y : Nibble} (hx : t.readV x = s.readV x) (hy : t.readV y = s.readV y)
    (hi : t.i = s.i) (hbytes : ∀ a, t.byteAt a = s.byteAt a) (n : Nibble) (X : Fin 64) (Y : Fin 32) :
    spriteBit t x y n X Y = spriteBit s x y n X Y := by
  simp only [spriteBit, hx, hy, hi, hbytes]

theorem SpriteReadable.congr {s t : State} {y n : Nibble} (h : SpriteReadable s y n) (hy : t.readV y = s.readV y)
    (hi : t.i = s.i) : SpriteReadable t y n := by
  unfold SpriteReadable
  rw [hy, hi]
  exact h

/-- The draw of a sprite on a display it has been drawn on inverts each pixel back, and meets an on pixel exactly where the
first draw met an off one (41_display.md R80). -/
theorem exec_drw_again {s u : State} {x y n : Nibble} (hread : SpriteReadable s y n) (hx : u.readV x = s.readV x)
    (hy : u.readV y = s.readV y) (hi : u.i = s.i) (hbytes : ∀ a, u.byteAt a = s.byteAt a)
    (hdrawn : ∀ X Y, u.display.pix X Y = (s.display.pix X Y ^^ spriteBit s x y n X Y)) :
    ∃ v, exec (.drw x y n) u = .next v ∧ v.display = s.display ∧
      v.readV vf = if ∃ X Y, spriteBit s x y n X Y = true ∧ s.display.pix X Y = false then 1 else 0 := by
  have hbit := spriteBit_congr hx hy hi hbytes n
  have hcollide : ∀ X Y, spriteBit u x y n X Y = true ∧ u.display.pix X Y = true ↔
      spriteBit s x y n X Y = true ∧ s.display.pix X Y = false := by
    intro X Y
    rw [hbit, hdrawn]
    cases spriteBit s x y n X Y <;> simp
  refine ⟨_, exec_drw_of_readable x (hread.congr hy hi), Display.ext_pix fun X Y => ?_, ?_⟩
  · rw [State.drawSprite_pix, hbit, hdrawn, Bool.xor_assoc, Bool.xor_self, Bool.xor_false]
  · rw [State.drawSprite_vf, flagByte_decide]
    simp only [hcollide]

/-- Settles O30: the acceptance of the frame between the draws changes nothing that the second reads. -/
theorem drawTwiceRestoresDisplay : Obligations.DrawTwiceRestoresDisplay := by
  intro s t x y n hread h hx hy
  cases (exec_drw_of_readable x hread).symm.trans h
  have hframe := s.drawSprite_same x y (s.spriteBytes y n)
  obtain ⟨u, hu, hdisplay, hvf⟩ :=
    exec_drw_again (u := { s.drawSprite x y (s.spriteBytes y n) with run := .running, pendingFrame := none })
      hread hx hy (hframe.i (by decide)) hframe.bytes (s.drawSprite_pix x y n)
  refine ⟨u, hu, hdisplay, hvf, fun hoff => ?_⟩
  have hall : ∀ X Y, spriteBit s x y n X Y = true ∧ s.display.pix X Y = false ↔ spriteBit s x y n X Y = true :=
    fun X Y => and_iff_left_of_imp (hoff X Y)
  simp only [hvf, hall]
  split <;> simp_all

end Sys2Proof.Machine
end

section
/-!
PROOFS. Memory in full (20_memory.md): bounded reads and the canonical form.
-/
namespace Sys2Proof.Machine

/-- Settles O8: a read of one byte by its bound, a read of two by the first address outside. -/
theorem memReadChecksBounds : Obligations.MemReadChecksBounds := by
  refine fun s a => ⟨fun ha => ?_, fun ha => ?_, s.memRead2_ok, fun ha => ?_, fun ha => ?_⟩
  · rw [State.memRead1_eq, if_pos ha]
  · rw [State.memRead1_eq, if_neg (by omega)]
  · rw [s.memRead2_error (by omega), if_neg (by omega), ha]
  · rw [s.memRead2_error (by omega), if_pos ha]

/-! ### The canonical form -/

variable {font : Font}

theorem Memory.wfFrom_cons {lo k : Nat} {b : Byte} {rest : Memory} :
    Memory.wfFrom font lo ((k, b) :: rest) = true ↔
      lo ≤ k ∧ k < memSize ∧ b ≠ Memory.baseline font k ∧ Memory.wfFrom font (k + 1) rest = true := by
  simp [Memory.wfFrom, and_assoc]

theorem Memory.read_cons_same (k : Nat) (b : Byte) (rest : Memory) : Memory.read font ((k, b) :: rest) k = b :=
  if_pos rfl

theorem Memory.read_cons_other {a k : Nat} (b : Byte) (rest : Memory) (h : a ≠ k) :
    Memory.read font ((k, b) :: rest) a = Memory.read font rest a :=
  if_neg h

/-- Canonical memory that lists no address up to `k` differs, at `k`, from one that lists `k` first (log 7). -/
theorem Memory.read_ne_of_first {k lo : Nat} {b : Byte} {rest m : Memory}
    (h : Memory.wfFrom font lo ((k, b) :: rest) = true) (hm : Memory.wfFrom font (k + 1) m = true) :
    Memory.read font ((k, b) :: rest) k ≠ Memory.read font m k := by
  obtain ⟨-, -, hb, -⟩ := Memory.wfFrom_cons.mp h
  rw [Memory.read_cons_same, Memory.read_below (Nat.lt_succ_self k) hm]
  exact hb

/-- Canonical memories that read the same list the same first address, and so on from there (log 7). -/
theorem Memory.eq_of_read_eq {lo : Nat} {m m' : Memory} (hm : Memory.wfFrom font lo m = true)
    (hm' : Memory.wfFrom font lo m' = true) (hread : ∀ a, Memory.read font m a = Memory.read font m' a) : m = m' := by
  induction m generalizing lo m' with
  | nil =>
    cases m' with
    | nil => rfl
    | cons first' rest' => exact absurd (hread first'.1).symm (Memory.read_ne_of_first hm' rfl)
  | cons first rest ih =>
    obtain ⟨k, b⟩ := first
    obtain ⟨hlo, hk, hb, hrest⟩ := Memory.wfFrom_cons.mp hm
    cases m' with
    | nil => exact absurd (hread k) (Memory.read_ne_of_first hm rfl)
    | cons first' rest' =>
      obtain ⟨k', b'⟩ := first'
      obtain ⟨hlo', hk', hb', hrest'⟩ := Memory.wfFrom_cons.mp hm'
      rcases Nat.lt_trichotomy k k' with hlt | rfl | hgt
      · have hbelow := Memory.wfFrom_cons.mpr ⟨hlt, hk', hb', hrest'⟩
        exact absurd (hread k) (Memory.read_ne_of_first hm hbelow)
      · have hhead : b = b' := by simpa only [Memory.read_cons_same] using hread k
        have htail : ∀ a, Memory.read font rest a = Memory.read font rest' a := by
          intro a
          by_cases ha : a = k
          · rw [ha, Memory.read_below k.lt_succ_self hrest, Memory.read_below k.lt_succ_self hrest']
          · simpa only [Memory.read_cons_other _ _ ha] using hread a
        rw [hhead, ih hrest hrest' htail]
      · have hbelow := Memory.wfFrom_cons.mpr ⟨hgt, hk, hb, hrest⟩
        exact absurd (hread k').symm (Memory.read_ne_of_first hm' hbelow)

/-- Settles O9: the canonical form from address 0 on. -/
theorem canonicalMemoryIsUnique : Obligations.CanonicalMemoryIsUnique :=
  fun _ _ _ hm hm' hread => Memory.eq_of_read_eq hm hm' hread

end Sys2Proof.Machine
end

section
/-!
PROOFS. The step request (40_step_cycle.md): which step it is, what it answers, which fault it takes, and that it neither
reads nor writes a timer.
-/
namespace Sys2Proof.Machine

/-! ### Which step it is -/

/-- A step request in RUN on a word that decodes (40_step_cycle.md R71). -/
theorem State.stepRequest_decoded {s : State} {i : Instr} (hrun : s.run = .running) (hpc : s.pc.toNat + 1 < 4096)
    (hdec : decodeFor s.params s.nextWord = .ok i) : s.stepRequest = exec i s.advancePc := by
  rw [State.stepRequest_running hrun, State.runInstr_fetched hpc, State.runWord_decoded hdec]

/-- Where the next event is a step request that finds the core in RUN, the step is that request. -/
theorem step_eq_stepRequest {s : State} (h : RequestNext s) : step s = s.afterEvent.stepRequest := by
  have hrun : s.afterEvent.run = .running := h.1
  rw [step_requestNext h, State.stepRequest_running hrun]

/-- Settles O53: by the list of events, and by the request that is next. -/
theorem stepHandlesNextEvent : Obligations.StepHandlesNextEvent :=
  fun _ => ⟨fun _ _ => step_listed, step_eq_stepRequest⟩

/-- Settles O11: the request is next, and its fetch and decoding succeed. -/
theorem stepRunsDecodedInstruction : Obligations.StepRunsDecodedInstruction :=
  fun _ _ hnext hpc hdec =>
    (step_eq_stepRequest hnext).trans (State.stepRequest_decoded (s := State.afterEvent _) hnext.1 hpc hdec)

/-- Settles O13: the fetch fault, as the request in RUN meets it. -/
theorem fetchOutsideMemoryFaults : Obligations.FetchOutsideMemoryFaults :=
  fun _ hrun hpc => (State.stepRequest_running hrun).trans (State.runInstr_outside hpc)

/-! ### What it answers -/

/-- An instruction that finds the core in RUN takes its fault, leaves the core in RUN, or is a draw whose frame waits
(60_exceptions.md R114, R128). -/
theorem exec_run_cases {i : Instr} {s t : State} (hrun : s.run = .running) (h : exec i s = .next t) :
    (t.run = .halted ∧ t.faultCause ≠ .none) ∨ t.run = .running ∨
      (t.run = .frameWait ∧ ∃ x y n, i = .drw x y n) := by
  rcases exec_fault_or_frame h with ⟨c, d, w, rfl | rfl, rfl⟩ | ⟨-, hframe⟩
  · exact .inl ⟨rfl, nofun⟩
  · exact .inl ⟨rfl, nofun⟩
  · by_cases hdraw : ∃ x y n, i = .drw x y n
    · obtain ⟨x, y, n, rfl⟩ := hdraw
      rcases execDrw_cases x y n s with ⟨-, hdone⟩ | ⟨r, -, -, -, hfault⟩
      · cases hdone.symm.trans h
        exact .inr (.inr ⟨rfl, x, y, n, rfl⟩)
      · cases hfault.symm.trans h
        exact .inl ⟨rfl, nofun⟩
    · exact .inr (.inl ((hframe.run fun hmem => hdraw ((run_mem_destParts_iff i).mp hmem)).trans hrun))

/-- What a step request in RUN answers (40_step_cycle.md R71, R74). -/
theorem State.runInstr_answers {s : State} (hrun : s.run = .running) :
    ∃ t, s.runInstr = .next t ∧
      ((t.run = .halted ∧ t.faultCause ≠ .none) ∨ t.run = .running ∨
        (t.run = .frameWait ∧ s.pc.toNat + 1 < 4096 ∧ ∃ x y n, decodeFor s.params s.nextWord = .ok (.drw x y n))) := by
  rcases s.runInstr_cases with ⟨-, hfetch⟩ | ⟨hpc, i, hdec, hexec⟩ | ⟨-, e, -, hword⟩
  · exact ⟨_, hfetch, .inl ⟨rfl, nofun⟩⟩
  · obtain ⟨t, ht, -⟩ := exec_answers i s.advancePc
    refine ⟨t, hexec.trans ht, ?_⟩
    rcases exec_run_cases (s := s.advancePc) hrun ht with hhalt | hgo | ⟨hwait, x, y, n, rfl⟩
    · exact .inl hhalt
    · exact .inr (.inl hgo)
    · exact .inr (.inr ⟨hwait, hpc, x, y, n, hdec⟩)
  · by_cases hstrict : s.params.strictDecode = true
    · exact ⟨_, hword.trans (if_pos hstrict), .inl ⟨rfl, nofun⟩⟩
    · exact ⟨_, hword.trans (if_neg hstrict), .inr (.inl hrun)⟩

/-- Settles O22: by the run state the request finds, and in RUN by the run state it leaves. -/
theorem stepRequestAlwaysAnswers : Obligations.StepRequestAlwaysAnswers := by
  intro s
  cases hrun : s.run with
  | halted =>
    exact ⟨s, State.stepRequest_halted hrun, fun _ => ⟨rfl, by rw [stepReport, hrun]⟩, nofun, nofun⟩
  | frameWait =>
    exact ⟨s, State.stepRequest_frameWait hrun, nofun, fun _ => ⟨rfl, by rw [stepReport, hrun]⟩, nofun⟩
  | running =>
    obtain ⟨t, ht, hcases⟩ := State.runInstr_answers hrun
    refine ⟨t, (State.stepRequest_running hrun).trans ht, nofun, nofun, fun _ => ?_⟩
    rcases hcases with ⟨hhalt, hcause⟩ | hgo | ⟨hwait, hpc, hdraw⟩
    · exact .inl ⟨hhalt, hcause, by simp [stepReport, hrun, hhalt]⟩
    · exact .inr (.inl ⟨hgo, by simp [stepReport, hrun, hgo]⟩)
    · exact .inr (.inr ⟨hwait, by simp [stepReport, hrun, hwait], hpc, hdraw⟩)

/-! ### Which fault it takes -/

/-- The two faults of instructions, each with its instruction and its guard (60_exceptions.md R116, R119). -/
theorem exec_fault_cases {i : Instr} {s t : State} (hrun : s.run = .running) (h : exec i s = .next t)
    (hhalt : t.run = .halted) :
    (∃ x y n r, i = .drw x y n ∧ r < min n.toNat (32 - (s.readV y).toNat % 32) ∧ 4096 ≤ s.i.toNat + r ∧
      (∀ q, q < r → s.i.toNat + q < 4096) ∧
      t = s.raiseInInstr .oobSpriteRead (BitVec.ofNat 16 (s.i.toNat + r)) (encode i)) ∨
    (∃ nnn, i = .call nnn ∧ s.params.stackDepth = some s.stack.length ∧
      t = s.raiseInInstr .stackOverflow 0 (encode i)) := by
  by_cases hdraw : ∃ x y n, i = .drw x y n
  · obtain ⟨x, y, n, rfl⟩ := hdraw
    rcases execDrw_cases x y n s with ⟨-, hdone⟩ | ⟨r, hr, hbad, hfirst, hfault⟩
    · cases hdone.symm.trans h
      cases hhalt
    · cases hfault.symm.trans h
      exact .inl ⟨x, y, n, r, rfl, hr, hbad, hfirst, rfl⟩
  by_cases hcall : ∃ nnn, i = .call nnn
  · obtain ⟨nnn, rfl⟩ := hcall
    by_cases hfull : s.params.stackDepth = some s.stack.length
    · cases (exec_call_of_full nnn hfull).symm.trans h
      exact .inr ⟨nnn, rfl, hfull, rfl⟩
    · cases (exec_call_of_room nnn hfull).symm.trans h
      cases hrun.symm.trans hhalt
  · push Not at hdraw hcall
    cases hrun.symm.trans ((exec_run_eq hcall hdraw h).symm.trans hhalt)

/-- Settles O21: by what a request in RUN can do; the fault of an instruction records the instruction's word, which is the
word fetched. -/
theorem stepFaultsForTheNamedCauses : Obligations.StepFaultsForTheNamedCauses := by
  intro s t hrun hstep hhalt
  rw [State.stepRequest_running hrun] at hstep
  rcases s.runInstr_cases with ⟨hpc, hfetch⟩ | ⟨hpc, i, hdec, hexec⟩ | ⟨hpc, e, hdec, hword⟩
  · cases hfetch.symm.trans hstep
    exact ⟨rfl, .inl ⟨hpc, rfl, rfl, rfl⟩⟩
  · have hencode : encode i = s.nextWord := encode_of_decode (decodeFor_eq_ok_iff.mp hdec).1
    rcases exec_fault_cases (s := s.advancePc) hrun (hexec.symm.trans hstep) hhalt with
      ⟨x, y, n, r, rfl, hr, hbad, hfirst, ht⟩ | ⟨nnn, rfl, hfull, ht⟩
    · rw [State.raiseInInstr_advancePc, hencode] at ht
      subst ht
      exact ⟨rfl, .inr (.inr (.inl ⟨hpc, x, y, n, r, hdec, hr, hbad, hfirst, rfl,
        toNat_rowAddr_of_before_inside s.i r hfirst, rfl⟩))⟩
    · rw [State.raiseInInstr_advancePc, hencode] at ht
      subst ht
      exact ⟨rfl, .inr (.inr (.inr ⟨hpc, nnn, _, hdec, hfull, rfl, rfl, rfl, rfl⟩))⟩
  · by_cases hstrict : s.params.strictDecode = true
    · cases (hword.trans (if_pos hstrict)).symm.trans hstep
      exact ⟨rfl, .inr (.inl ⟨hpc, ⟨e, hdec⟩, hstrict, rfl, rfl, rfl⟩)⟩
    · cases (hword.trans (if_neg hstrict)).symm.trans hstep
      cases hrun.symm.trans hhalt

/-! ### What it keeps, and the timers -/

/-- A step request that finds the core in FRAME_WAIT or HALTED changes nothing (40_step_cycle.md R72, R73). -/
theorem State.stepRequest_not_running {s : State} (h : s.run ≠ .running) : s.stepRequest = .next s := by
  cases hrun : s.run with
  | running => exact absurd hrun h
  | frameWait => exact State.stepRequest_frameWait hrun
  | halted => exact State.stepRequest_halted hrun

/-- A step request changes neither memory nor timers, parameters or the agents' fields (10_state.md R15). -/
theorem State.stepRequest_keeps {s t : State} (h : s.stepRequest = .next t) : Keeps s t := by
  by_cases hrun : s.run = .running
  · rw [State.stepRequest_running hrun] at h
    rcases s.runInstr_cases with ⟨-, hfetch⟩ | ⟨-, i, -, hexec⟩ | ⟨-, e, -, hword⟩
    · cases hfetch.symm.trans h
      exact keeps_raise s _ _ _ _
    · exact (exec_keeps (hexec.symm.trans h)).of_writePc
    · by_cases hstrict : s.params.strictDecode = true
      · cases (hword.trans (if_pos hstrict)).symm.trans h
        exact keeps_raise s _ _ _ _
      · cases (hword.trans (if_neg hstrict)).symm.trans h
        exact (Keeps.refl _).of_writePc
  · cases (State.stepRequest_not_running hrun).symm.trans h
    exact .refl s

/-- A step request does the same at all values of the timers (70_reset_and_hazards.md R147). -/
theorem State.stepRequest_withTimers {s t : State} (h : s.stepRequest = .next t) (dt st : Byte) :
    ({ s with dt := dt, st := st }).stepRequest = .next { t with dt := dt, st := st } := by
  by_cases hrun : s.run = .running
  · rw [State.stepRequest_running hrun] at h
    rw [State.stepRequest_running (s := { s with dt := dt, st := st }) hrun]
    rcases s.runInstr_cases with ⟨hpc, hfetch⟩ | ⟨hpc, i, hdec, hexec⟩ | ⟨hpc, e, hdec, hword⟩
    · cases hfetch.symm.trans h
      exact State.runInstr_outside (s := { s with dt := dt, st := st }) hpc
    · rw [State.runInstr_fetched (s := { s with dt := dt, st := st }) hpc]
      exact (State.runWord_decoded (s := { s with dt := dt, st := st }) hdec).trans
        (exec_withTimers (hexec.symm.trans h) dt st)
    · rw [State.runInstr_fetched (s := { s with dt := dt, st := st }) hpc]
      refine (State.runWord_unrecognised (s := { s with dt := dt, st := st }) hdec).trans ?_
      by_cases hstrict : s.params.strictDecode = true
      · cases (hword.trans (if_pos hstrict)).symm.trans h
        exact if_pos hstrict
      · cases (hword.trans (if_neg hstrict)).symm.trans h
        exact if_neg hstrict
  · cases (State.stepRequest_not_running hrun).symm.trans h
    exact State.stepRequest_not_running hrun

/-- Settles O19: the tick is a choice of timers, which the request does not notice and keeps. -/
theorem timersAreInvisibleToSteps : Obligations.TimersAreInvisibleToSteps := by
  intro s t h
  have hkeeps := State.stepRequest_keeps h
  have hdt : t.tick.dt = s.tick.dt := by rw [State.tick_dt, State.tick_dt, hkeeps.params, hkeeps.dt]
  have hst : t.tick.st = s.tick.st := by rw [State.tick_st, State.tick_st, hkeeps.params, hkeeps.st]
  refine ⟨State.stepRequest_withTimers h, ?_, s.tick_eq⟩
  calc s.tick.stepRequest
    _ = .next { t with dt := s.tick.dt, st := s.tick.st } := State.stepRequest_withTimers h _ _
    _ = .next t.tick := by rw [t.tick_eq, hdt, hst]

/-! ### A call and its return -/

/-- Settles O34: the call's request pushes the advanced `pc`, which the return's request pops. -/
theorem callThenReturnComesBack : Obligations.CallThenReturnComesBack := by
  intro s nnn hrun hpc hword hroom htarget hret
  have hdec : decodeFor s.params s.nextWord = .ok (.call nnn) := hword ▸ decodeFor_call s.params nnn
  have hcall : s.stepRequest = .next ((s.advancePc.push (s.pc + 2)).writePc (zextAddr nnn)) :=
    (State.stepRequest_decoded hrun hpc hdec).trans (exec_call_of_room nnn hroom)
  generalize hu : (s.advancePc.push (s.pc + 2)).writePc (zextAddr nnn) = called at hcall
  have haddr : called.pc.toNat = nnn.toNat := hu ▸ zextAddr_toNat nnn
  have hnext : called.nextWord = 0x00EE := by
    rw [State.nextWord, haddr, ← hret, ← hu]
    rfl
  have hstack : called.stack = (s.pc + 2) :: s.stack := hu ▸ rfl
  have hreturn : called.stepRequest = exec .ret called.advancePc :=
    State.stepRequest_decoded (hu ▸ hrun) (haddr ▸ htarget) (by rw [hnext]; rfl)
  exact ⟨called, _, hcall, haddr, hreturn.trans (exec_ret_of_cons hstack), rfl, rfl⟩

end Sys2Proof.Machine
end

section
/-!
PROOFS. The events of the agents (60_exceptions.md R126 to R131): the acceptance of a frame, and everything one step can do.
-/
namespace Sys2Proof.Machine

/-! ### The acceptance of a frame -/

/-- The core from which the sink has taken the frame `f`, with no request waiting (60_exceptions.md R128). -/
def State.handedOver (s : State) (f : Display) : State :=
  { s with run := .running, pendingFrame := none, delivered := s.delivered ++ [f], requestHeld := false }

theorem State.accepted_eq (s : State) (f : Display) : s.accepted f = s.afterEvent.handedOver f := rfl

/-- With no request held the acceptance is the frame's hand-over alone (60_exceptions.md R128). -/
theorem State.handedOver_of_not_held {s : State} (h : s.requestHeld = false) (f : Display) :
    s.handedOver f = { s with run := .running, pendingFrame := none, delivered := s.delivered ++ [f] } := by
  rw [State.handedOver, ← h]

/-- An acceptance where it is enabled completes the request that is held (40_step_cycle.md R73). -/
theorem State.onAcceptFrame_eq {s : State} {f : Display} (hrun : s.run = .frameWait) (hf : s.pendingFrame = some f) :
    s.onAcceptFrame = if s.requestHeld then (s.handedOver f).stepRequest else .next (s.handedOver f) := by
  simp only [State.onAcceptFrame, State.acceptFrame_eq hrun hf]
  cases s.requestHeld with
  | true => rfl
  | false => rfl

/-- A step request as an event in FRAME_WAIT is held (40_step_cycle.md R73; log 3). -/
theorem State.onStepRequest_frameWait {s : State} (hrun : s.run = .frameWait) :
    s.onStepRequest = .next { s with requestHeld := true } := by
  unfold State.onStepRequest
  rw [hrun]

/-- Elsewhere it is the step request itself. -/
theorem State.onStepRequest_not_frameWait {s : State} (hrun : s.run ≠ .frameWait) : s.onStepRequest = s.stepRequest := by
  cases h : s.run with
  | frameWait => exact absurd h hrun
  | running => exact State.onStepRequest_running h
  | halted => unfold State.onStepRequest; rw [h]

/-- Settles O16: an acceptance with no request held, and one that is not enabled. -/
theorem acceptFrameDeliversPendingFrame : Obligations.AcceptFrameDeliversPendingFrame := by
  refine fun s => ⟨fun f hrun hf hheld => ?_, State.onEvent_acceptFrame_notEnabled⟩
  change s.onAcceptFrame = _
  rw [State.onAcceptFrame_eq hrun hf, if_neg (by rw [hheld]; decide), State.handedOver_of_not_held hheld]

/-- Settles O15: the request is held, then completed by the acceptance; with no event listed the sink's habit decides. -/
theorem frameWaitHoldsStepRequest : Obligations.FrameWaitHoldsStepRequest := by
  intro s f hrun hf
  refine ⟨State.stepRequest_frameWait hrun, State.onStepRequest_frameWait hrun,
    State.onAcceptFrame_eq (s := { s with requestHeld := true }) hrun hf, fun hin haccepts => ?_, fun hin hrefuses => ?_⟩
  · rw [step_idle hin, State.onIdle_accepts hrun hf haccepts hin, State.accepted_eq, State.afterEvent_nil hin]
    rfl
  · rw [step_idle hin, State.onIdle_refused hrefuses, State.onIdleDriver]
    cases s.idle.driverRequests with
    | true => rw [Bool.or_true]; exact State.onStepRequest_frameWait hrun
    | false => rw [Bool.or_false]; rfl

/-! ### Everything one step can do -/

/-- The ways in which a step answers a next state: a step request at once, or held; a tick; an acceptance, alone or with the
request it completes; a reset; or a driver that has stopped (60_exceptions.md R130, R131). -/
inductive StepCase (s t : State) : Prop
  | request (hrun : s.run ≠ .frameWait) (hstep : s.afterEvent.stepRequest = .next t)
  | held (hrun : s.run = .frameWait) (ht : t = { s.afterEvent with requestHeld := true })
  | tick (ht : t = s.afterEvent.tick)
  | accepted (f : Display) (hrun : s.run = .frameWait) (hf : s.pendingFrame = some f) (ht : t = s.accepted f)
  | acceptedRequest (f : Display) (hrun : s.run = .frameWait) (hf : s.pendingFrame = some f)
      (hstep : (s.accepted f).stepRequest = .next t)
  | reset (image : List Byte) (rest : List HostEvent) (fresh : State) (hin : s.inputs = .reset image :: rest)
      (hfresh : construct s.params image = some fresh)
      (ht : t = { fresh with inputs := s.inputs.tail, idle := s.idle, delivered := s.delivered })
  | silent (ht : t = s.afterEvent)

theorem State.onStepRequest_cases {s t : State} (h : s.onStepRequest = .next t) :
    (s.run ≠ .frameWait ∧ s.stepRequest = .next t) ∨ (s.run = .frameWait ∧ t = { s with requestHeld := true }) := by
  by_cases hrun : s.run = .frameWait
  · cases (State.onStepRequest_frameWait hrun).symm.trans h
    exact .inr ⟨hrun, rfl⟩
  · exact .inl ⟨hrun, (State.onStepRequest_not_frameWait hrun).symm.trans h⟩

theorem State.onAcceptFrame_cases {s t : State} (h : s.onAcceptFrame = .next t) :
    ∃ f, s.run = .frameWait ∧ s.pendingFrame = some f ∧
      (t = s.handedOver f ∨ (s.handedOver f).stepRequest = .next t) := by
  cases haccept : s.acceptFrame with
  | none =>
    rw [State.onAcceptFrame, haccept] at h
    cases h
  | some u =>
    obtain ⟨hrun, f, hf, -⟩ := State.acceptFrame_some haccept
    rw [State.onAcceptFrame_eq hrun hf] at h
    refine ⟨f, hrun, hf, ?_⟩
    split at h
    · exact .inr h
    · cases h
      exact .inl rfl

/-- The state after an event is listed no longer is the one with the rest of the list. -/
theorem State.afterEvent_cons {s : State} {e : HostEvent} {rest : List HostEvent} (h : s.inputs = e :: rest) :
    ({ s with inputs := rest } : State) = s.afterEvent := by
  rw [State.afterEvent, h, List.tail_cons]

theorem stepCase_of_onStepRequest {s t : State} (h : s.afterEvent.onStepRequest = .next t) : StepCase s t := by
  rcases State.onStepRequest_cases h with ⟨hrun, hstep⟩ | ⟨hrun, ht⟩
  · exact .request hrun hstep
  · exact .held hrun ht

/-- The held request of the core before does not matter, since the acceptance ends it. -/
theorem stepCase_of_onAcceptFrame {s t : State} {b : Bool}
    (h : ({ s.afterEvent with requestHeld := b }).onAcceptFrame = .next t) : StepCase s t := by
  obtain ⟨f, hrun, hf, ht | hstep⟩ := State.onAcceptFrame_cases h
  · exact .accepted f hrun hf ht
  · exact .acceptedRequest f hrun hf hstep

/-- Every step that answers a next state is one of these, by the list of events and then by the agents' habits. -/
theorem step_cases {s t : State} (h : step s = .next t) : StepCase s t := by
  cases hin : s.inputs with
  | nil =>
    rw [step_idle hin, ← State.afterEvent_nil hin, State.onIdle] at h
    split at h
    · exact stepCase_of_onAcceptFrame h
    · rw [State.onIdleDriver] at h
      split at h
      · exact stepCase_of_onStepRequest h
      · cases h
        exact .silent rfl
  | cons e rest =>
    rw [step_listed hin, State.afterEvent_cons hin] at h
    cases e with
    | stepRequest => exact stepCase_of_onStepRequest h
    | tick => cases h; exact .tick rfl
    | acceptFrame => exact stepCase_of_onAcceptFrame (b := s.requestHeld) h
    | reset image =>
      obtain ⟨fresh, hfresh, ht⟩ := State.onReset_next h
      exact .reset image rest fresh hin hfresh ht

/-! ### What every step keeps -/

/-- A step keeps the parameters and the agents' habits, and memory unless it is a reset (20_memory.md R41; logs 1, 2). -/
theorem step_keeps {s t : State} (h : step s = .next t) :
    (t.params = s.params ∧ t.idle = s.idle) ∧ (t.mem = s.mem ∨ ∃ image rest, s.inputs = .reset image :: rest) := by
  cases step_cases h with
  | request _ hstep =>
    have hkeeps := State.stepRequest_keeps hstep
    exact ⟨⟨hkeeps.params, hkeeps.idle⟩, .inl hkeeps.mem⟩
  | acceptedRequest f _ _ hstep =>
    have hkeeps := State.stepRequest_keeps hstep
    exact ⟨⟨hkeeps.params, hkeeps.idle⟩, .inl hkeeps.mem⟩
  | reset image rest fresh hin hfresh ht =>
    obtain ⟨bs, -, rfl⟩ := construct_cases hfresh
    subst ht
    exact ⟨⟨rfl, rfl⟩, .inr ⟨image, rest, hin⟩⟩
  | held _ ht | tick ht | accepted _ _ _ ht | silent ht =>
    subst ht
    exact ⟨⟨rfl, rfl⟩, .inl rfl⟩

/-- Settles O52: every step keeps both, a reset by constructing with the machine's parameters. -/
theorem stepKeepsParameters : Obligations.StepKeepsParameters :=
  fun _ _ h => (step_keeps h).1

/-- An event is the step of the machine that lists it first. -/
theorem step_of_event (s : State) (e : HostEvent) : step { s with inputs := e :: s.inputs } = s.onEvent e :=
  step_listed (s := { s with inputs := e :: s.inputs }) rfl

/-- Settles O10: an instruction keeps memory as data, and so does a step whose event is no reset. -/
theorem onlyConstructionWritesMemory : Obligations.OnlyConstructionWritesMemory := by
  refine ⟨fun i s t h => ?_, fun e s t hnoReset h => ?_⟩
  · have hkeeps := exec_keeps h
    exact ⟨hkeeps.mem, State.byteAt_congr hkeeps.mem hkeeps.params⟩
  · obtain ⟨⟨hparams, -⟩, hmem | ⟨image, rest, hin⟩⟩ := step_keeps ((step_of_event s e).trans h)
    · exact State.byteAt_congr (s := s) hmem hparams
    · exact absurd (List.head_eq_of_cons_eq hin) (hnoReset image)

end Sys2Proof.Machine
end

section
/-!
PROOFS. The invariant (10_state.md, 60_exceptions.md): each operation keeps it, hence each instruction, each event and each
step; and what it gives for the frames.
-/
namespace Sys2Proof.Machine

/-! ### Construction -/

/-- The reset state under any parameters (10_state.md R32). -/
theorem inv_resetWith (p : Params) : Inv (State.resetWith p) where
  memory := rfl
  index := show (0x000#16).toNat < 4096 by decide
  pc := show (0x200#16).toNat ≤ 0x1002 by decide
  returns := nofun
  depth := fun _ _ => Nat.zero_le _
  frame := ⟨nofun, nofun⟩
  frameIsDisplay := nofun
  halted := ⟨nofun, fun h => absurd rfl h⟩
  status := fun _ => ⟨rfl, rfl, rfl⟩
  overflow := nofun
  unknown := nofun
  held := nofun
  timers := fun _ => ⟨rfl, rfl⟩

/-- An image in program space is canonical memory (70_reset_and_hazards.md R139). -/
theorem inv_construct {p : Params} {image : List Byte} {s : State} (h : construct p image = some s) : Inv s := by
  obtain ⟨bs, hbs, rfl⟩ := construct_cases h
  exact { inv_resetWith p with memory := Memory.wf_load rfl bs 0x200 (Nat.add_le_add_left hbs 0x200) }

/-- Settles O50: the reset state is construction with no image. -/
theorem constructedCoreMeetsInvariant : Obligations.ConstructedCoreMeetsInvariant :=
  ⟨inv_construct (construct_nil Params.default), fun _ _ _ => inv_construct⟩

/-! ### The operations of instructions -/

/-- The operand NNN is 12 bits wide (30_encoding.md R55). -/
theorem zextAddr_toNat_lt (nnn : Addr12) : (zextAddr nnn).toNat < 4096 := by
  rw [zextAddr_toNat]
  exact nnn.isLt

namespace Inv

variable {s : State}

theorem pendingFrame_eq_none (h : Inv s) (hrun : s.run ≠ .frameWait) : s.pendingFrame = none :=
  Option.not_isSome_iff_eq_none.mp fun hsome => hrun (h.frame.mpr hsome)

theorem faultCause_eq_none (h : Inv s) (hrun : s.run ≠ .halted) : s.faultCause = .none :=
  by_contra fun hcause => hrun (h.halted.mpr hcause)

theorem writeV (h : Inv s) (x : Nibble) (b : Byte) : Inv (s.writeV x b) := { h with }

theorem writeResultAndFlag (h : Inv s) (x : Nibble) (r : Byte) (f : Bool) : Inv (s.writeResultAndFlag x r f) := by
  unfold State.writeResultAndFlag
  split
  · exact (h.writeV _ _).writeV _ _
  · exact (h.writeV _ _).writeV _ _

theorem writeI (h : Inv s) {w : Word} (hw : w.toNat < 4096) : Inv (s.writeI w) := { h with index := hw }

theorem writePc (h : Inv s) {w : Word} (hw : w.toNat ≤ 0x1002) : Inv (s.writePc w) := { h with pc := hw }

theorem warn (h : Inv s) (k : WarningKind) (a : Word) : Inv (s.warn k a) := { h with }

theorem setStack (h : Inv s) {stack : List Word} (hreturns : ∀ w ∈ stack, w.toNat ≤ 0x1000)
    (hdepth : ∀ d, s.params.stackDepth = some d → stack.length ≤ d) : Inv { s with stack := stack } :=
  { h with returns := hreturns, depth := hdepth }

/-- The top of the stack is gone (42_control_flow.md R87). -/
theorem pop (h : Inv s) {top : Word} {rest : List Word} (hstack : s.stack = top :: rest) :
    Inv { s with stack := rest } := by
  refine h.setStack (fun w hw => h.returns w (hstack ▸ List.mem_cons_of_mem top hw)) fun d hd => ?_
  have hlength := h.depth d hd
  rw [hstack, List.length_cons] at hlength
  omega

/-- A return address on a stack with room (42_control_flow.md R90). -/
theorem push (h : Inv s) {w : Word} (hw : w.toNat ≤ 0x1000) (hroom : s.params.stackDepth ≠ some s.stack.length) :
    Inv (s.push w) := by
  refine h.setStack (fun a ha => ?_) fun d hd => ?_
  · rcases List.mem_cons.mp ha with rfl | hmem
    · exact hw
    · exact h.returns a hmem
  · have hlength := h.depth d hd
    have hne : s.stack.length ≠ d := fun heq => hroom (heq ▸ hd)
    rw [List.length_cons]
    omega

/-- A taken skip from a fetched instruction leaves `pc` at most 0x1002 (43_skip.md R93). -/
theorem skipIf (h : Inv s) (hpc : s.pc.toNat ≤ 0x1000) (b : Bool) : Inv (s.skipIf b) := by
  cases b with
  | false => exact h
  | true => exact h.writePc (show (s.pc + 2).toNat ≤ 0x1002 by bv_omega)

/-- No frame is pending that the display could differ from. -/
theorem setDisplay (h : Inv s) (hrun : s.run = .running) (d : Display) : Inv { s with display := d } := by
  have hnone := h.pendingFrame_eq_none (by rw [hrun]; decide)
  exact { h with frameIsDisplay := fun f hf => by cases hnone.symm.trans hf }

theorem emitFrame (h : Inv s) (hrun : s.run = .running) : Inv s.emitFrame := by
  have hcause := h.faultCause_eq_none (by rw [hrun]; decide)
  exact { h with
    frame := iff_of_true rfl rfl
    frameIsDisplay := fun f hf => (Option.some.inj hf).symm
    halted := iff_of_false nofun fun hne => hne hcause
    held := fun _ => rfl }

theorem raise (h : Inv s) (hrun : s.run = .running) {c : FaultCause} (hc : c ≠ .none)
    (hoverflow : c = .stackOverflow → s.params.stackDepth ≠ none)
    (hunknown : c = .unknownOpcode → s.params.strictDecode = true) (a d w : Word) : Inv (s.raise c a d w) := by
  have hnone := h.pendingFrame_eq_none (by rw [hrun]; decide)
  exact { h with
    frame := iff_of_false nofun fun hsome => by simp [hnone] at hsome
    halted := iff_of_true rfl hc
    status := fun hcause => absurd hcause hc
    overflow := hoverflow
    unknown := hunknown
    held := fun hheld => by cases hrun.symm.trans (h.held hheld) }

/-! ### The instructions -/

/-- An instruction that was fetched inside memory and does not fault keeps the invariant. -/
theorem exec {t : State} {i : Instr} (h : Inv s) (hrun : s.run = .running) (hpc : s.pc.toNat ≤ 0x1000)
    (hexec : Machine.exec i s = .next t) (hgo : t.run ≠ .halted) : Inv t := by
  have htarget : ∀ nnn, (zextAddr nnn).toNat ≤ 0x1002 := fun nnn => by have := zextAddr_toNat_lt nnn; omega
  cases i with
  | cls => cases hexec; exact h.setDisplay hrun _
  | ret =>
    cases hstack : s.stack with
    | nil =>
      cases (exec_ret_of_nil hstack).symm.trans hexec
      exact (h.warn _ _).writePc (Nat.zero_le _)
    | cons top rest =>
      cases (exec_ret_of_cons hstack).symm.trans hexec
      have htop : top.toNat ≤ 0x1000 := h.returns top (hstack ▸ List.mem_cons_self)
      exact (h.pop hstack).writePc (by omega)
  | jp nnn => cases hexec; exact h.writePc (htarget nnn)
  | call nnn =>
    by_cases hfull : s.params.stackDepth = some s.stack.length
    · cases (exec_call_of_full nnn hfull).symm.trans hexec
      exact absurd rfl hgo
    · cases (exec_call_of_room nnn hfull).symm.trans hexec
      exact (h.push hpc hfull).writePc (htarget nnn)
  | drw x y n =>
    rcases execDrw_cases x y n s with ⟨-, hdone⟩ | ⟨r, -, -, -, hfault⟩
    · cases hdone.symm.trans hexec
      exact ((h.setDisplay hrun _).writeV vf _).emitFrame hrun
    · cases hfault.symm.trans hexec
      exact absurd rfl hgo
  | ldI nnn => cases hexec; exact h.writeI (zextAddr_toNat_lt nnn)
  | seImm | sneImm | seReg | sneReg => cases hexec; exact h.skipIf hpc _
  | addReg | sub | shr | subn | shl => cases hexec; exact h.writeResultAndFlag _ _ _
  | ldImm | addImm | ldReg | or | and | xor => cases hexec; exact h.writeV _ _

/-! ### The step request and the events -/

/-- The fault a step request takes is one the invariant allows (60_exceptions.md R116 to R120). -/
theorem stepRequest_fault {t : State} (h : Inv s) (hrun : s.run = .running) (hstep : s.stepRequest = .next t)
    (hhalt : t.run = .halted) : Inv t := by
  obtain ⟨-, hcauses⟩ := stepFaultsForTheNamedCauses s t hrun hstep hhalt
  obtain ⟨c, d, w, rfl⟩ := State.stepRequest_halts hrun hstep hhalt
  rcases hcauses with ⟨-, hc, -⟩ | ⟨-, -, hstrict, hc, -⟩ | ⟨-, -, -, -, -, -, -, -, -, hc, -⟩ |
    ⟨-, -, depth, -, hdepth, -, hc, -⟩
  · obtain rfl : c = .oobFetch := hc
    exact h.raise (c := .oobFetch) hrun nofun nofun nofun _ _ _
  · obtain rfl : c = .unknownOpcode := hc
    exact h.raise (c := .unknownOpcode) hrun nofun nofun (fun _ => hstrict) _ _ _
  · obtain rfl : c = .oobSpriteRead := hc
    exact h.raise (c := .oobSpriteRead) hrun nofun nofun nofun _ _ _
  · obtain rfl : c = .stackOverflow := hc
    exact h.raise (c := .stackOverflow) hrun nofun (fun _ => by rw [hdepth]; nofun) nofun _ _ _

/-- A step request keeps the invariant: a fetch inside memory advances `pc` to at most 0x1000. -/
theorem stepRequest {t : State} (h : Inv s) (hstep : s.stepRequest = .next t) : Inv t := by
  by_cases hrun : s.run = .running
  · by_cases hhalt : t.run = .halted
    · exact h.stepRequest_fault hrun hstep hhalt
    rw [State.stepRequest_running hrun] at hstep
    rcases s.runInstr_cases with ⟨-, hfetch⟩ | ⟨hpc, i, -, hexec⟩ | ⟨hpc, e, -, hword⟩
    · cases hfetch.symm.trans hstep
      exact absurd rfl hhalt
    · have hadvanced : (s.pc + 2).toNat ≤ 0x1000 := by bv_omega
      exact (h.writePc (w := s.pc + 2) (by omega)).exec hrun hadvanced (hexec.symm.trans hstep) hhalt
    · by_cases hstrict : s.params.strictDecode = true
      · cases (hword.trans (if_pos hstrict)).symm.trans hstep
        exact absurd rfl hhalt
      · cases (hword.trans (if_neg hstrict)).symm.trans hstep
        exact h.writePc (by bv_omega)
  · cases (State.stepRequest_not_running hrun).symm.trans hstep
    exact h

theorem afterEvent (h : Inv s) : Inv s.afterEvent := { h with }

theorem tick (h : Inv s) : Inv s.tick := by
  refine { h with timers := fun hclamp => ?_ }
  obtain ⟨hdt, hst⟩ := h.timers hclamp
  have hclamped : s.params.timerUnderflow = .clamp := hclamp
  rw [State.tick_dt, State.tick_st, hclamped, hdt, hst]
  exact ⟨rfl, rfl⟩

theorem accepted (h : Inv s) (hrun : s.run = .frameWait) (f : Display) : Inv (s.accepted f) := by
  have hcause := h.faultCause_eq_none (by rw [hrun]; decide)
  exact { h with
    frame := iff_of_false nofun nofun
    frameIsDisplay := nofun
    halted := iff_of_false nofun fun hne => hne hcause
    held := nofun }

end Inv

/-- Settles O51: by everything a step can do. -/
theorem stepKeepsInvariant : Obligations.StepKeepsInvariant := by
  intro s t h hstep
  cases step_cases hstep with
  | request _ hrequest => exact h.afterEvent.stepRequest hrequest
  | held hrun ht => subst ht; exact { h with held := fun _ => hrun }
  | tick ht => subst ht; exact h.afterEvent.tick
  | accepted f hrun _ ht => subst ht; exact h.accepted hrun f
  | acceptedRequest f hrun _ hrequest => exact (h.accepted hrun f).stepRequest hrequest
  | reset _ _ fresh _ hfresh ht => subst ht; exact { inv_construct hfresh with }
  | silent ht => subst ht; exact h.afterEvent

end Sys2Proof.Machine
end

section
/-!
PROOFS. Frames and runs (60_exceptions.md R128 to R135): the delivery of a frame, a run that goes on, and the runs in which
nothing but the timers moves.
-/
namespace Sys2Proof.Machine

/-! ### The delivery of a frame -/

/-- Settles O17: by everything a step can do; by the invariant a frame is pending exactly while the core waits. -/
theorem frameIsDeliveredExactlyOnce : Obligations.FrameIsDeliveredExactlyOnce := by
  intro s t hinv hstep
  cases step_cases hstep with
  | request hrun hrequest =>
    have hnone := hinv.pendingFrame_eq_none hrun
    exact ⟨fun _ => (State.stepRequest_keeps hrequest).delivered, fun f hf => by cases hnone.symm.trans hf⟩
  | held _ ht | tick ht | silent ht =>
    subst ht
    exact ⟨fun _ => rfl, fun f hf => .inl ⟨hf, rfl⟩⟩
  | accepted f _ hf ht =>
    subst ht
    refine ⟨fun hnone => (by cases hnone.symm.trans hf), fun g hg => ?_⟩
    cases hf.symm.trans hg
    exact .inr (.inl ⟨rfl, rfl, .inl rfl⟩)
  | acceptedRequest f _ hf hrequest =>
    refine ⟨fun hnone => (by cases hnone.symm.trans hf), fun g hg => ?_⟩
    cases hf.symm.trans hg
    exact .inr (.inl ⟨(State.stepRequest_keeps hrequest).delivered, rfl, .inr hrequest⟩)
  | reset image rest fresh hin hfresh ht =>
    obtain ⟨bs, -, rfl⟩ := construct_cases hfresh
    subst ht
    exact ⟨fun _ => rfl, fun f _ => .inr (.inr ⟨⟨image, rest, hin⟩, rfl, rfl⟩)⟩

/-! ### A run that goes on -/

/-- Settles O55: in RUN the driver's request is next; in FRAME_WAIT the invariant has a frame, which the sink accepts. -/
theorem runGoesOnWhileHostDoesItsDuty : Obligations.RunGoesOnWhileHostDoesItsDuty := by
  refine fun s hinv hin hdriver hsink => ⟨fun hrun => ?_, fun hrun => ?_⟩
  · rw [step_eq_stepRequest ⟨hrun, .inl ⟨hin, hdriver⟩⟩, State.afterEvent_nil hin]
  · obtain ⟨f, hf⟩ := Option.isSome_iff_exists.mp (hinv.frame.mp hrun)
    refine ⟨f, hf, rfl, ?_⟩
    rw [step_idle hin, State.onIdle_accepts hrun hf hsink hin, if_pos (by rw [hdriver, Bool.or_true])]

/-! ### Runs in which nothing but the timers moves -/

/-- After `k` steps the state differs from the first at most in the timers, the events handled and, in FRAME_WAIT, the held
request. -/
structure MovesTimersOnly (k : Nat) (s u : State) : Prop where
  same : u = { s with inputs := s.inputs.drop k, dt := u.dt, st := u.st, requestHeld := u.requestHeld }
  held : s.run ≠ .frameWait → u.requestHeld = s.requestHeld

theorem MovesTimersOnly.zero (s : State) : MovesTimersOnly 0 s s := ⟨rfl, fun _ => rfl⟩

theorem MovesTimersOnly.run_eq {k : Nat} {s u : State} (h : MovesTimersOnly k s u) : u.run = s.run := by
  rw [h.same]

theorem MovesTimersOnly.idle_eq {k : Nat} {s u : State} (h : MovesTimersOnly k s u) : u.idle = s.idle := by
  rw [h.same]

theorem MovesTimersOnly.inputs_eq {k : Nat} {s u : State} (h : MovesTimersOnly k s u) :
    u.inputs = s.inputs.drop k := by
  rw [h.same]

theorem MovesTimersOnly.succ {k : Nat} {s t u : State} (hfirst : MovesTimersOnly 1 s t) (hrest : MovesTimersOnly k t u) :
    MovesTimersOnly (k + 1) s u where
  same := by
    have hdrop : t.inputs.drop k = s.inputs.drop (k + 1) := by rw [hfirst.inputs_eq, List.drop_drop, Nat.add_comm]
    have hlast := hrest.same
    rw [hdrop, hfirst.same] at hlast
    exact hlast
  held hrun := (hrest.held (hfirst.run_eq ▸ hrun)).trans (hfirst.held hrun)

/-- The state after an event, with any timers and, in FRAME_WAIT, any held request. -/
theorem movesTimersOnly_of_afterEvent {s a : State} (ha : a = s.afterEvent) (dt st : Byte) {b : Bool}
    (hb : s.run ≠ .frameWait → b = s.requestHeld) :
    MovesTimersOnly 1 s { a with dt := dt, st := st, requestHeld := b } where
  same := by rw [ha, List.drop_one]; rfl
  held := hb

/-- The states at which a run ends, each with the events that leave it there: HALTED, a driver that has stopped, a sink that
never accepts (60_exceptions.md R135). -/
inductive Stands (s : State) : Prop
  | halted (hrun : s.run = .halted) (honly : OnlyRequestsAndTicks s)
  | silent (hrun : s.run = .running) (honly : OnlyTicks s)
  | waiting (hrun : s.run = .frameWait) (hsink : s.idle.sinkAccepts = false) (honly : OnlyRequestsAndTicks s)

namespace Stands

variable {s t : State}

/-- The events to come are ticks, or step requests that find the core not in RUN. -/
theorem listed (h : Stands s) {e : HostEvent} (he : e ∈ s.inputs) : e = .tick ∨ (e = .stepRequest ∧ s.run ≠ .running) := by
  cases h with
  | halted hrun honly => exact (honly e he).symm.imp id fun heq => ⟨heq, by rw [hrun]; decide⟩
  | silent _ honly => exact .inl (honly.2 e he)
  | waiting hrun _ honly => exact (honly e he).symm.imp id fun heq => ⟨heq, by rw [hrun]; decide⟩

/-- With no event listed the driver acts alone, and its request finds the core not in RUN. -/
theorem unlisted (h : Stands s) : s.onIdle = s.onIdleDriver ∧ (s.idle.driverRequests = true → s.run ≠ .running) := by
  cases h with
  | halted hrun _ => exact ⟨State.onIdle_driver (by rw [hrun]; decide), fun _ => by rw [hrun]; decide⟩
  | silent hrun honly =>
    exact ⟨State.onIdle_driver (by rw [hrun]; decide), fun hdriver => by cases honly.1.symm.trans hdriver⟩
  | waiting hrun hsink _ => exact ⟨State.onIdle_refused hsink, fun _ => by rw [hrun]; decide⟩

/-- Such a state is left by no step that moves the timers only. -/
theorem of_movesTimersOnly {k : Nat} (h : Stands s) (hmove : MovesTimersOnly k s t) : Stands t := by
  have hsub : ∀ e ∈ t.inputs, e ∈ s.inputs := fun e he => List.mem_of_mem_drop (hmove.inputs_eq ▸ he)
  cases h with
  | halted hrun honly => exact .halted (hmove.run_eq.trans hrun) fun e he => honly e (hsub e he)
  | silent hrun honly =>
    exact .silent (hmove.run_eq.trans hrun) ⟨hmove.idle_eq ▸ honly.1, fun e he => honly.2 e (hsub e he)⟩
  | waiting hrun hsink honly =>
    exact .waiting (hmove.run_eq.trans hrun) (hmove.idle_eq ▸ hsink) fun e he => honly e (hsub e he)

end Stands

/-- A step request that finds the core not in RUN changes at most the held request, and that in FRAME_WAIT only. -/
theorem State.onStepRequest_not_running {s : State} (hrun : s.run ≠ .running) :
    ∃ b, s.onStepRequest = .next { s with requestHeld := b } ∧ (s.run ≠ .frameWait → b = s.requestHeld) := by
  by_cases hwait : s.run = .frameWait
  · exact ⟨true, State.onStepRequest_frameWait hwait, fun hnot => absurd hwait hnot⟩
  · exact ⟨s.requestHeld,
      (State.onStepRequest_not_frameWait hwait).trans (State.stepRequest_not_running hrun), fun _ => rfl⟩

/-- A step from such a state moves the timers only. -/
theorem Stands.step {s : State} (h : Stands s) : ∃ t, step s = .next t ∧ MovesTimersOnly 1 s t := by
  cases hin : s.inputs with
  | nil =>
    have hafter : s = s.afterEvent := (State.afterEvent_nil hin).symm
    obtain ⟨hidle, hdriver⟩ := h.unlisted
    rw [step_idle hin, hidle, State.onIdleDriver]
    split
    · obtain ⟨b, hb, hkept⟩ := State.onStepRequest_not_running (hdriver ‹_›)
      exact ⟨_, hb, movesTimersOnly_of_afterEvent hafter _ _ hkept⟩
    · exact ⟨_, rfl, movesTimersOnly_of_afterEvent hafter _ _ fun _ => rfl⟩
  | cons e rest =>
    rw [step_listed hin, State.afterEvent_cons hin]
    rcases h.listed (hin ▸ List.mem_cons_self) with rfl | ⟨rfl, hrun⟩
    · exact ⟨_, rfl, movesTimersOnly_of_afterEvent rfl _ _ fun _ => rfl⟩
    · obtain ⟨b, hb, hkept⟩ := State.onStepRequest_not_running (s := s.afterEvent) hrun
      exact ⟨_, hb, movesTimersOnly_of_afterEvent rfl _ _ hkept⟩

/-- Hence so does any number of steps. -/
theorem Stands.core_run : ∀ (k : Nat) {s : State}, Stands s →
    ∃ u, Host.Core.run Sys2Proof.core k s = .next u ∧ MovesTimersOnly k s u
  | 0, s, _ => ⟨s, rfl, .zero s⟩
  | k + 1, _, h => by
    obtain ⟨t, ht, hfirst⟩ := h.step
    obtain ⟨u, hu, hrest⟩ := Stands.core_run k (h.of_movesTimersOnly hfirst)
    exact ⟨u, (core_run_succ ht).trans hu, hfirst.succ hrest⟩

/-- Outside FRAME_WAIT the held request stays as it was too. -/
theorem MovesTimersOnly.same_of_not_frameWait {k : Nat} {s u : State} (h : MovesTimersOnly k s u)
    (hrun : s.run ≠ .frameWait) : u = { s with inputs := s.inputs.drop k, dt := u.dt, st := u.st } := by
  have hsame := h.same
  rw [h.held hrun] at hsame
  exact hsame

/-- Settles O54: each of the three is a state at which a run ends. -/
theorem runEndsInTheThreeNamedWays : Obligations.RunEndsInTheThreeNamedWays := by
  refine fun k s => ⟨fun hrun honly => ?_, fun hrun honly => ?_, fun hrun hsink honly => ?_⟩
  · obtain ⟨u, hu, hmove⟩ := Stands.core_run k (.halted hrun honly)
    exact ⟨u, hu, hmove.same_of_not_frameWait (by rw [hrun]; decide)⟩
  · obtain ⟨u, hu, hmove⟩ := Stands.core_run k (.silent hrun honly)
    exact ⟨u, hu, hmove.same_of_not_frameWait (by rw [hrun]; decide)⟩
  · obtain ⟨u, hu, hmove⟩ := Stands.core_run k (.waiting hrun hsink honly)
    exact ⟨u, hu, hmove.same⟩

/-! ### A jump to itself -/

/-- A jump to its own address writes back the `pc` that the fetch advanced (42_control_flow.md R89). -/
theorem State.stepRequest_selfJump {s : State} {nnn : Addr12} (hrun : s.run = .running) (hpc : s.pc.toNat + 1 < 4096)
    (hword : s.nextWord = encNNN 0x1000 nnn) (hself : nnn.toNat = s.pc.toNat) : s.stepRequest = .next s := by
  have hdec : decodeFor s.params s.nextWord = .ok (.jp nnn) := hword ▸ decodeFor_jp s.params nnn
  have htarget : zextAddr nnn = s.pc := BitVec.eq_of_toNat_eq ((zextAddr_toNat nnn).trans hself)
  rw [State.stepRequest_decoded hrun hpc hdec, exec_jp, htarget]
  rfl

/-- A state that its step answers is answered by any number of steps. -/
theorem core_run_of_step_self {s : State} (h : step s = .next s) : ∀ k, Host.Core.run Sys2Proof.core k s = .next s
  | 0 => rfl
  | k + 1 => (core_run_succ h).trans (core_run_of_step_self h k)

/-- Settles O56: with no event listed the driver requests the jump again, or does nothing. -/
theorem selfJumpChangesNothing : Obligations.SelfJumpChangesNothing := by
  intro s nnn hrun hpc hword hself
  have hjump := State.stepRequest_selfJump hrun hpc hword hself
  refine ⟨hjump, fun hin => core_run_of_step_self ?_⟩
  have hwait : s.run ≠ .frameWait := by rw [hrun]; decide
  rw [step_idle hin, State.onIdle_driver hwait, State.onIdleDriver]
  split
  · exact (State.onStepRequest_running hrun).trans hjump
  · rfl

end Sys2Proof.Machine
end

section
/-!
PROOFS. Reset and placement (70_reset_and_hazards.md R136 to R140; log 13).
-/
namespace Sys2Proof.Machine

/-! ### The reset event -/

/-- A reset whose construction gives a core answers it, among the same agents (70_reset_and_hazards.md R136). -/
theorem State.onEvent_reset {s fresh : State} {image : List Byte} (h : construct s.params image = some fresh) :
    s.onEvent (.reset image) = .next { fresh with inputs := s.inputs, idle := s.idle, delivered := s.delivered } := by
  change s.onReset image = _
  rw [State.onReset, State.reconstruct, h]

/-- A reset whose construction gives none is refused (70_reset_and_hazards.md R140; log 10). -/
theorem State.onEvent_reset_refused {s : State} {image : List Byte} (h : construct s.params image = none) :
    s.onEvent (.reset image) = .refused .imageTooLong := by
  change s.onReset image = _
  rw [State.onReset, State.reconstruct, h]

/-- Settles O48: what construction gives depends on the parameters and the image alone. -/
theorem resetForgetsTheStateBefore : Obligations.ResetForgetsTheStateBefore :=
  fun s _ => ⟨fun hfit => ⟨_, construct_of_fits s.params hfit⟩, fun _ => State.onEvent_reset, fun _ => State.onReset_next⟩

/-- An image that does not fit is rejected, where the parameters say so (70_reset_and_hazards.md R140). -/
theorem construct_rejects {p : Params} {image : List Byte} (hlong : 3584 < image.length)
    (hp : p.loadOversize = .reject) : construct p image = none := by
  rw [construct, if_neg (Nat.not_le.mpr hlong), hp]

/-- An image that does not fit is cut, where the parameters say so (70_reset_and_hazards.md R140). -/
theorem construct_truncates {p : Params} {image : List Byte} (hlong : 3584 < image.length)
    (hp : p.loadOversize = .truncate) : construct p image = construct p (image.take 3584) := by
  rw [construct_of_fits p (List.length_take_le _ _), construct, if_neg (Nat.not_le.mpr hlong), hp]

/-- Settles O47: by the two values of `P_LOAD_OVERSIZE`; the cut image fits. -/
theorem oversizeImageIsRejectedOrCut : Obligations.OversizeImageIsRejectedOrCut := by
  refine fun p image hlong => ⟨fun hp => ⟨construct_rejects hlong hp, ?_⟩, fun hp => ?_⟩
  · rintro s rfl
    exact State.onEvent_reset_refused (construct_rejects hlong hp)
  · have hfit : (image.take 3584).length ≤ 3584 := List.length_take_le _ _
    have hcut := construct_of_fits p hfit
    exact ⟨_, (construct_truncates hlong hp).trans hcut, hcut,
      fun a ha => State.byteAt_loadImage_outside rfl hfit (.inl ha)⟩

/-! ### A word placed in the reset state -/

theorem ofNat_toNat_mod (w : Word) : BitVec.ofNat 16 (w.toNat % 2 ^ 16) = w := by
  rw [Nat.mod_eq_of_lt w.isLt, BitVec.ofNat_toNat, BitVec.setWidth_eq]

/-- The bytes of a word that decodes are that instruction's (30_encoding.md R65). -/
theorem decodeBytes_wordBytes {p : Params} {w : Word} {i : Instr} (h : decodeFor p w = .ok i) :
    decodeBytes p (wordBytes w) = .ok (i, []) := by
  rw [wordBytes, decodeBytes, composeWord_wordBytes, h]

/-- The host's reading of a table word is the decoder's (log 8). -/
theorem decodeTableWord_of_decode {w : Word} {i : Instr} (hdec : decode w = .ok i) :
    decodeTableWord 16 w.toNat = some i := by
  have hbytes := decodeBytes_wordBytes (decodeFor_of_decode (p := tableParams) hdec (Bool.or_true _))
  rw [decodeTableWord, ofNat_toNat_mod, hbytes]

/-- The core constructed with the word as its image, on a machine that has the word's instruction (log 13). -/
def placedCore (w : Word) (i : Instr) : State :=
  (State.resetWith { Params.default with arith8Ext := i.isExtension }).loadImage (wordBytes w)

theorem withFetchWord_reset {w : Word} {i : Instr} (hdec : decode w = .ok i) :
    State.reset.withFetchWord 16 w.toNat = placedCore w i := by
  have hext : State.reset.withExtensionFor w = State.resetWith { Params.default with arith8Ext := i.isExtension } := by
    rw [State.withExtensionFor, hdec]
    rfl
  rw [State.withFetchWord, ofNat_toNat_mod, State.placeWord, hext]
  rfl

theorem placedCore_nextWord (w : Word) (i : Instr) : (placedCore w i).nextWord = w := by
  have hhigh : (placedCore w i).byteAt (0x200 + 0) = w.extractLsb' 8 8 :=
    State.byteAt_loadImage_inside rfl (by simp [wordBytes]) (by simp [wordBytes])
  have hlow : (placedCore w i).byteAt (0x200 + 1) = w.extractLsb' 0 8 :=
    State.byteAt_loadImage_inside rfl (by simp [wordBytes]) (by simp [wordBytes])
  calc (placedCore w i).nextWord
    _ = composeWord ((placedCore w i).byteAt (0x200 + 0)) ((placedCore w i).byteAt (0x200 + 1)) := rfl
    _ = w := by rw [hhigh, hlow, composeWord_wordBytes]

/-- Settles O49: the placed word is the word the next fetch reads, under parameters that have its instruction. -/
theorem placedWordRunsFirst : Obligations.PlacedWordRunsFirst := by
  intro w i hdec
  have hfetched : decodeFor (placedCore w i).params (placedCore w i).nextWord = .ok i := by
    rw [placedCore_nextWord]
    exact decodeFor_of_decode hdec (Bool.not_or_self _)
  have hrequest : RequestNext (placedCore w i) := ⟨rfl, .inl ⟨rfl, rfl⟩⟩
  have hinside : (placedCore w i).pc.toNat + 1 < 4096 := show (0x200#16).toNat + 1 < 4096 by decide
  have hstep := stepRunsDecodedInstruction (placedCore w i) i hrequest hinside hfetched
  exact ⟨_, (congrArg step (withFetchWord_reset hdec)).trans hstep, rfl, rfl, decodeTableWord_of_decode hdec⟩

end Sys2Proof.Machine
end
